-- ==== Sys2Proof/Word.lean ====
section
/-! DEFINITION. The value domains of 00_scope.md R9 and the five line roles of 20_memory.md R50. -/

namespace Sys2Proof

/-- `Bit` = {0, 1}: an element of a shift array, a level written to a line; `true` is 1 (R9). -/
abbrev Bit := Bool

/-- The 8-bit command header `hdr`; bit 0 is the least significant (R10, R70). -/
abbrev Header := BitVec 8

/-- `Level` = {0, 1, ⊥}; `unknown` is ⊥, "no value known" (R9). -/
inductive Level where
  | zero
  | one
  | unknown
deriving DecidableEq, Repr

/-- `Out` = {0, 1, Z, ⊥}: a visible output pin; `z` is "not driven" (R9). -/
inductive Out where
  | zero
  | one
  | z
  | unknown
deriving DecidableEq, Repr

/-- Whether a write made a rising edge, and `maybe` from an unknown level (60_exceptions.md R174, R179). -/
inductive Edge where
  | yes
  | no
  | maybe
deriving DecidableEq, Repr

/-- The line-role space: the controller's whole address space (20_memory.md R50, R60). -/
inductive Role where
  | latch
  | clock
  | data
  | oe
  | mr
deriving DecidableEq, Repr

end Sys2Proof
end

