-- ==== Sys2Proof/Syntax.lean ====
section
/-! DEFINITION. The command record of the command port (10_state.md R41), the five commands, one constructor per row
of spec/opcode_table.json (30_encoding.md R75), and what the decoder can answer (R76). -/

namespace Sys2Proof

/-- A command as the host presents it: `hdr` 8 bits, `count` an unbounded natural, `bits` a list of Bits of any
length, element 0 first (R41, R70). An element outside {0, 1} cannot be written (R73). -/
structure Command where
  hdr   : Header
  count : Nat
  bits  : List Bit
deriving DecidableEq, Repr

/-- The five commands and their operands (R73, R75). -/
inductive Instr where
  /-- CONSTRUCT: `O`, `M`, chip count (40_construct.md R100). -/
  | construct (hasOE hasMR : Bit) (chipCount : Nat)
  /-- ENABLE_OUTPUT (41_output_control.md R110). -/
  | enableOutput
  /-- DISABLE_OUTPUT (R111). -/
  | disableOutput
  /-- IS_OUTPUT_ENABLED (R112). -/
  | isOutputEnabled
  /-- SHIFT, and SHIFT.R when `reset` is 1 (42_shift.md R130). -/
  | shift (reset : Bit) (bits : List Bit)
deriving DecidableEq, Repr

/-- Why the decoder rejects a record: each case is one of the reserved encodings of R77, and all of them reach the
host as `IllegalCommand`. -/
inductive Reject where
  /-- `hdr[7:6] != 00`. -/
  | reservedHeaderBits
  /-- R outside SHIFT, O or M outside CONSTRUCT. -/
  | strayFlag
  /-- A non-zero `count` outside CONSTRUCT. -/
  | strayCount
  /-- A non-empty `bits` outside SHIFT. -/
  | strayBits
  /-- OP 101, 110 or 111. -/
  | reservedOp
deriving DecidableEq, Repr

/-- The decoder's answer: a command with its operands, or a rejection by name (R76). -/
inductive Decoded where
  | ok (i : Instr)
  | rejected (why : Reject)
deriving DecidableEq, Repr

/-- The three formats of R72. -/
inductive Format where
  | cfg
  | none
  | shf
deriving DecidableEq, Repr

/-- One row of the opcode map: a header `h` selects the row when `h & mask = match` (R75). -/
structure OpcodeRow where
  mnemonic : String
  pattern  : Header
  mask     : Header
  format   : Format
deriving DecidableEq, Repr

/-- The table's mnemonic of a command (R75). -/
def Instr.mnemonic : Instr → String
  | .construct _ _ _ => "CONSTRUCT"
  | .enableOutput => "ENABLE_OUTPUT"
  | .disableOutput => "DISABLE_OUTPUT"
  | .isOutputEnabled => "IS_OUTPUT_ENABLED"
  | .shift _ _ => "SHIFT"

/-- Whether a command is CONSTRUCT, which R167's check 5 asks. -/
def Instr.isConstruct : Instr → Bool
  | .construct _ _ _ => true
  | .enableOutput => false
  | .disableOutput => false
  | .isOutputEnabled => false
  | .shift _ _ => false

end Sys2Proof
end

