-- ==== Sys2Proof/Decode.lean ====
section
/-! DEFINITION. The decoder of 30_encoding.md R76, total over every record, the opcode map of R75, and the encoder
written from the header patterns of R72. -/

namespace Sys2Proof

/-- Header field OP, `hdr[2:0]` (R71). -/
def Header.op (h : Header) : BitVec 3 := h.extractLsb' 0 3

/-- Header flag R, `hdr[3]`: pulse MR before shifting (R71). -/
def Header.flagR (h : Header) : Bit := h.getLsbD 3

/-- Header flag O, `hdr[4]`: an OE line is supplied (R71). -/
def Header.flagO (h : Header) : Bit := h.getLsbD 4

/-- Header flag M, `hdr[5]`: an MR line is supplied (R71). -/
def Header.flagM (h : Header) : Bit := h.getLsbD 5

/-- Header bits `hdr[7:6]`, reserved (R71). -/
def Header.reserved (h : Header) : BitVec 2 := h.extractLsb' 6 2

/-- OP 000 of R76: CONSTRUCT. -/
def decodeConstruct (c : Command) : Decoded :=
  if c.hdr.flagR then .rejected .strayFlag
  else if c.bits ≠ [] then .rejected .strayBits
  else .ok (.construct c.hdr.flagO c.hdr.flagM c.count)

/-- OP 001, 010, 011 of R76: a command `i` of format NONE, with no flag, count or bits. -/
def decodeNone (i : Instr) (c : Command) : Decoded :=
  if c.hdr.flagR || c.hdr.flagO || c.hdr.flagM then .rejected .strayFlag
  else if c.count ≠ 0 then .rejected .strayCount
  else if c.bits ≠ [] then .rejected .strayBits
  else .ok i

/-- OP 100 of R76: SHIFT. -/
def decodeShift (c : Command) : Decoded :=
  if c.hdr.flagO || c.hdr.flagM then .rejected .strayFlag
  else if c.count ≠ 0 then .rejected .strayCount
  else .ok (.shift c.hdr.flagR c.bits)

/-- `Decode` of R76: reads no state and touches no line. -/
def decode (c : Command) : Decoded :=
  if c.hdr.reserved ≠ 0#2 then .rejected .reservedHeaderBits
  else match c.hdr.op.toNat with
    | 0 => decodeConstruct c
    | 1 => decodeNone .enableOutput c
    | 2 => decodeNone .disableOutput c
    | 3 => decodeNone .isOutputEnabled c
    | 4 => decodeShift c
    | _ => .rejected .reservedOp

/-- The header of a command, its pattern of R72 written bit 7 first. -/
def Instr.header : Instr → Header
  | .construct hasOE hasMR _ => 0#2 ++ BitVec.ofBool hasMR ++ BitVec.ofBool hasOE ++ 0#4
  | .enableOutput => 0#5 ++ 1#3
  | .disableOutput => 0#5 ++ 2#3
  | .isOutputEnabled => 0#5 ++ 3#3
  | .shift reset _ => 0#4 ++ BitVec.ofBool reset ++ 4#3

/-- The encoder: the one record of a command (R72, R78). -/
def encode : Instr → Command
  | .construct hasOE hasMR chipCount => ⟨(Instr.construct hasOE hasMR chipCount).header, chipCount, []⟩
  | .enableOutput => ⟨Instr.enableOutput.header, 0, []⟩
  | .disableOutput => ⟨Instr.disableOutput.header, 0, []⟩
  | .isOutputEnabled => ⟨Instr.isOutputEnabled.header, 0, []⟩
  | .shift reset bits => ⟨(Instr.shift reset bits).header, 0, bits⟩

/-- The opcode map of R75, row by row. -/
def opcodeMap : List OpcodeRow :=
  [ ⟨"CONSTRUCT", 0x00#8, 0xCF#8, .cfg⟩,
    ⟨"ENABLE_OUTPUT", 0x01#8, 0xFF#8, .none⟩,
    ⟨"DISABLE_OUTPUT", 0x02#8, 0xFF#8, .none⟩,
    ⟨"IS_OUTPUT_ENABLED", 0x03#8, 0xFF#8, .none⟩,
    ⟨"SHIFT", 0x04#8, 0xF7#8, .shf⟩ ]

/-- A header `h` selects the row when `h & mask = match` (R75). -/
def OpcodeRow.selects (row : OpcodeRow) (h : Header) : Bool := (h &&& row.mask) == row.pattern

/-- What a format asks of the operands (R72): `count` 0 outside CFG, `bits` empty outside SHF. -/
def Format.admits (f : Format) (c : Command) : Bool :=
  match f with
  | .cfg => c.bits.isEmpty
  | .none => c.count == 0 && c.bits.isEmpty
  | .shf => c.count == 0

/-- D0's `new(latch, clock, data, outputEnable?, masterReset?, chipCount = 1)` with its defaults (R74, R78). -/
def sourceNew (outputEnable masterReset : Bit := false) (chipCount : Nat := 1) : Command :=
  encode (.construct outputEnable masterReset chipCount)

/-- D0's `shift(bits, reset = false)` with its default (R74, R78). -/
def sourceShift (bits : List Bit) (reset : Bit := false) : Command := encode (.shift reset bits)

/-- A bit list as R78 writes it, element 0 first. -/
def bitsText (bits : List Bit) : String :=
  "[" ++ ",".intercalate (bits.map fun b => if b then "1" else "0") ++ "]"

/-- The mnemonic spelling of R78: `CONSTRUCT n, OE, MR`, `SHIFT.R [b0,b1,...]` and so on. -/
def Instr.text : Instr → String
  | .construct hasOE hasMR chipCount =>
    "CONSTRUCT " ++ Nat.repr chipCount ++ (if hasOE then ", OE" else "") ++ (if hasMR then ", MR" else "")
  | .enableOutput => "ENABLE_OUTPUT"
  | .disableOutput => "DISABLE_OUTPUT"
  | .isOutputEnabled => "IS_OUTPUT_ENABLED"
  | .shift reset bits => (if reset then "SHIFT.R " else "SHIFT ") ++ bitsText bits

/-- The record of a word numbered as spec/opcode_table.json numbers it: the table gives only the header bits, bit 0
the least significant, so `count` and `bits` are zero and empty. DESIGN CHOICE, safe; log entry 11. -/
def recordOfTableWord (nbits w : Nat) : Command := ⟨BitVec.ofNat 8 (w % 2 ^ nbits), 0, []⟩

/-- What the decoder reads from a table word; none where it rejects, or where the word has a bit outside the 8-bit
header. -/
def decodeTableWord (nbits w : Nat) : Option Instr :=
  if w % 2 ^ nbits < 256 then
    match decode (recordOfTableWord nbits w) with
    | .ok i => some i
    | .rejected _ => none
  else none

end Sys2Proof
end

