-- ==== Sys2Proof/Config.lean ====
section
/-! DEFINITION. The parameters of 00_scope.md R8, as a record that State carries and no step changes, and the
free draws of 20_memory.md R51 and R52 as constants without a body. -/

namespace Sys2Proof

/-- The named parameters of R8, one value per machine.
The timing parameters `T_*` are OPEN with no values and the model is untimed (R207): they are not here. -/
structure Platform where
  /-- `MAX_CHIPS`; `none` is "unset, unbounded" (R8, 40_construct.md R102). -/
  maxChips            : Option Nat
  /-- `OE_TIED_LEVEL`: the chip's OE input when no OE line is managed (R8, R29). -/
  oeTied              : Bit
  /-- `MR_TIED_LEVEL`: the chip's MR input when no MR line is managed (R8, R29). -/
  mrTied              : Bit
  /-- `PIN_WRITES_FALLIBLE` (R8, R51, R171). -/
  pinWritesFallible   : Bool
  /-- `SHIFT_WHILE_LATCH_HIGH` (R8, R175, R181). -/
  shiftWhileLatchHigh : Bool
deriving DecidableEq, Repr

/-- The platform of the state after reset: `PIN_WRITES_FALLIBLE` and `SHIFT_WHILE_LATCH_HIGH` at their defaults
(R8), `MR_TIED_LEVEL` 1 as R204 step 3 requires; `MAX_CHIPS` unset and `OE_TIED_LEVEL` 0 are a DESIGN CHOICE
(the spec leaves both OPEN), unsafe: log entry 1. Every statement is about every platform. -/
def Platform.atReset : Platform :=
  { maxChips := none, oeTied := false, mrTied := true, pinWritesFallible := false, shiftWhileLatchHigh := true }

/-- FREE VALUE: the level drawn by the `n`-th draw, when it reads a line whose level is ⊥ (R52, 93 P5).
No body: nothing can be proved of it. Safe; log entry 2. -/
opaque Config.freeLevel : Nat → Bit

/-- FREE VALUE: whether the write of the `n`-th draw fails, consulted only when `PIN_WRITES_FALLIBLE` (R51, R171,
93 P6). No body: nothing can be proved of it. Safe; log entry 2. -/
opaque Config.writeFails : Nat → Bool

end Sys2Proof
end

