-- ==== Sys2Proof/Machine/State.lean ====
section
/-! DEFINITION. The state of the machine: the tuple `(CFG, LINE, SEQ, CHAIN, HIST, MARKS)` of 10_state.md R20, the
parameters of 00_scope.md R8, and the model's own two fields (the host's next actions and the counter of draws). -/

namespace Sys2Proof.Machine

/-- `CFG` (R21 to R24): written once, by CONSTRUCT. -/
structure Cfg where
  /-- `CFG.N`, the chip count (R21). -/
  chips : Nat
  /-- `CFG.HAS_OE` (R22). -/
  hasOE : Bit
  /-- `CFG.HAS_MR` (R23). -/
  hasMR : Bit
deriving DecidableEq, Repr

/-- `LINE[r]` for each role (R26). Whether OE and MR exist is read off `CFG` (R24, R26): a line that does not exist
keeps the level ⊥ here and nothing reads it (log entry 10). -/
structure Lines where
  latch : Level
  clock : Level
  data  : Level
  oe    : Level
  mr    : Level
deriving DecidableEq, Repr

/-- `SEQ.PHASE` (R30). -/
inductive Phase where
  | unconfigured
  | idle
  | busy
  | faulted
  | destroyed
deriving DecidableEq, Repr

/-- A micro-op: one line access, performed as one controller step (R11, R13). -/
inductive MicroOp where
  /-- `PinWrite(r, v)` (R51). -/
  | write (r : Role) (v : Bit)
  /-- `PinRead(r)` (R52). -/
  | read (r : Role)
deriving DecidableEq, Repr

/-- The status names of a response; their codes are `Status.code` (60_exceptions.md R166). -/
inductive Status where
  | ok
  | invalidLength
  | unmanagedPin
  | pinIoError
  | illegalCommand
  | notConfigured
  | reconfigure
  | badChipCount
  | destroyed
  | concurrentCommand
deriving DecidableEq, Repr

/-- The refusal and fault causes, the elements of `MARKS` (R40, R164, R165). -/
inductive Cause where
  | illegalCommand
  | notConfigured
  | reconfigure
  | badChipCount
  | destroyed
  | concurrentCommand
deriving DecidableEq, Repr

/-- A response on the response port (R42, 30_encoding.md R79). -/
structure Response where
  status   : Status
  value    : Bit
  expected : Nat
  actual   : Nat
  role     : Option Role
deriving DecidableEq, Repr

/-- `SEQ` (R30 to R33). -/
structure Sequencer where
  /-- `SEQ.PHASE` (R30). -/
  phase : Phase
  /-- `SEQ.OPS`, the micro-ops of the command in progress (R31). -/
  ops   : List MicroOp
  /-- `SEQ.K`, the index of the next micro-op (R31). -/
  k     : Nat
  /-- `SEQ.CMD`, the decoded command in progress (R32). -/
  cmd   : Option Instr
  /-- `SEQ.RESP`, the last response written (R33). -/
  resp  : Option Response
deriving DecidableEq, Repr

/-- `CHAIN` (R34, R35): stage 0 is the one DATA feeds. -/
structure Chain where
  /-- `CHAIN.SR[0 .. L-1]` (R34). -/
  sr  : List Level
  /-- `CHAIN.OUT[0 .. L-1]` (R35). -/
  out : List Level
deriving DecidableEq, Repr

/-- The chain-side phase, derived from LATCH (R37). -/
inductive ChainPhase where
  | shifting
  | idle
  | unknown
deriving DecidableEq, Repr

/-- The events of `HIST` (R39). `cmd` carries the record the host issued, which an illegal command has too (log
entry 7). -/
inductive Event where
  | write (r : Role) (v : Bit)
  | read (r : Role) (v : Bit)
  | cmd (c : Command)
  | resp (r : Response)
deriving DecidableEq, Repr

/-- What the host does in one step of the machine (R6, R41, R184, R205). DESIGN CHOICE, safe; log entry 3. -/
inductive HostAction where
  /-- Present a record on the command port in this step, whatever the phase (R41). -/
  | present (c : Command)
  /-- D0's blocking call: wait while the controller is BUSY, then present the record (R61, R184). -/
  | call (c : Command)
  /-- End the controller's life; not possible while BUSY, so it waits (R205). -/
  | release
  /-- Do nothing in this step. -/
  | pass
deriving DecidableEq, Repr

/-- The whole state (R20). -/
structure State where
  /-- `CFG`; before CONSTRUCT it holds no value (R21, R46). -/
  cfg      : Option Cfg
  /-- `LINE` (R26). -/
  line     : Lines
  /-- `SEQ` (R30 to R33). -/
  seq      : Sequencer
  /-- `CHAIN` (R34, R35); before CONSTRUCT there is no stage (R46). -/
  chain    : Chain
  /-- `HIST`, oldest event first (R39). -/
  hist     : List Event
  /-- `MARKS`, a set in canonical form: causes in rising order of their code, none twice (R40, log entry 12). -/
  marks    : List Cause
  /-- The parameters of R8; no step changes them. -/
  platform : Platform
  /-- The model's own: how many free draws have been taken (log entry 2). -/
  draws    : Nat
  /-- The model's own: what the host does next (log entry 3). -/
  host     : List HostAction
deriving DecidableEq, Repr

/-- The reasons the machine stops. -/
inductive Fault where
  /-- The phase is FAULTED: "no command is accepted and no step is enabled" (R30, R165). Raised by every step and every
  command in that phase. Safe: the spec's machine takes no step there either; log entry 5. -/
  | controllerFaulted
deriving DecidableEq, Repr

/-- The reasons an instruction has no meaning in this model. -/
inductive Refusal where
  /-- An instruction not modelled yet. Raised by no arm of `exec`: all five have their meaning. Safe. -/
  | notModelled (mnemonic : String)
deriving DecidableEq, Repr

/-- The state at instantiation, the first column of R46 (R200), with the values of log entries 1, 2 and 3 for what
the spec does not fix. -/
def State.reset : State :=
  { cfg := none
    line := ⟨.unknown, .unknown, .unknown, .unknown, .unknown⟩
    seq := { phase := .unconfigured, ops := [], k := 0, cmd := none, resp := none }
    chain := { sr := [], out := [] }
    hist := []
    marks := []
    platform := Platform.atReset
    draws := 0
    host := [] }

end Sys2Proof.Machine
end

