-- ==== Sys2Proof/Machine/Flags.lean ====
section
/-! DEFINITION. The controller has no flags or condition codes (10_state.md R45): the only status a host sees is the
response. This file gives the status codes and builds every response record (60_exceptions.md R166, 30_encoding.md R79). -/

namespace Sys2Proof.Machine

/-- The code written in the response's `status` field (R166). -/
def Status.code : Status → BitVec 8
  | .ok => 0x00#8
  | .invalidLength => 0x01#8
  | .unmanagedPin => 0x02#8
  | .pinIoError => 0x03#8
  | .illegalCommand => 0x10#8
  | .notConfigured => 0x11#8
  | .reconfigure => 0x12#8
  | .badChipCount => 0x13#8
  | .destroyed => 0x14#8
  | .concurrentCommand => 0x20#8

/-- The status a refusal or fault reports (R164 to R166). -/
def Cause.status : Cause → Status
  | .illegalCommand => .illegalCommand
  | .notConfigured => .notConfigured
  | .reconfigure => .reconfigure
  | .badChipCount => .badChipCount
  | .destroyed => .destroyed
  | .concurrentCommand => .concurrentCommand

/-- The cause's code as a number, the order of the canonical form of `MARKS`. -/
def Cause.number (c : Cause) : Nat := c.status.code.toNat

/-- A response with only a status: every other field is 0 or none (R42, R79). -/
def Response.bare (st : Status) : Response :=
  { status := st, value := false, expected := 0, actual := 0, role := none }

/-- `Ok()` (R160). -/
def Response.success : Response := Response.bare .ok

/-- `Ok(value)`: the answer of IS_OUTPUT_ENABLED (R79, R112). -/
def Response.answer (v : Bit) : Response := { Response.success with value := v }

/-- `InvalidLength` with its two lengths (R161). -/
def Response.lengthError (expected actual : Nat) : Response :=
  { Response.bare .invalidLength with expected := expected, actual := actual }

/-- `UnmanagedPin` with the missing role (R162, R163). -/
def Response.unmanaged (r : Role) : Response := { Response.bare .unmanagedPin with role := some r }

/-- `PinIoError` with the failed line's role (R171). -/
def Response.ioError (r : Role) : Response := { Response.bare .pinIoError with role := some r }

/-- The response of a refusal or of the fault: its code and no other field (R164 to R166). -/
def Response.ofCause (c : Cause) : Response := Response.bare c.status

end Sys2Proof.Machine
end

