-- ==== Sys2Proof/Machine/Operands.lean ====
section
/-! DEFINITION. What the commands compute from their operands and the configuration: the stage count `L`, the two
checks of SHIFT, the check of CONSTRUCT, and whether an optional line is managed. -/

namespace Sys2Proof.Machine

/-- `PINS_PER_CHIP` (00_scope.md R7). -/
def pinsPerChip : Nat := 8

/-- `L = CFG.N * 8`, exact over the naturals (10_state.md R25, 00_scope.md R12); no stage before CONSTRUCT. -/
def State.stages (s : State) : Nat :=
  match s.cfg with
  | none => 0
  | some c => c.chips * pinsPerChip

/-- `CFG.HAS_OE = 1` (R22). -/
def State.hasOE (s : State) : Bit :=
  match s.cfg with
  | none => false
  | some c => c.hasOE

/-- `CFG.HAS_MR = 1` (R23). -/
def State.hasMR (s : State) : Bit :=
  match s.cfg with
  | none => false
  | some c => c.hasMR

/-- The chip count that CONSTRUCT refuses as `BadChipCount`: 0, or above `MAX_CHIPS` where it is set
(40_construct.md R102). -/
def badChipCount (p : Platform) (n : Nat) : Bool :=
  if n = 0 then true
  else match p.maxChips with
    | none => false
    | some most => decide (most < n)

/-- The chip an output pin belongs to (R10, 20_memory.md R54). -/
def chipOf (pin : Nat) : Nat := pin / pinsPerChip

/-- The local pin of an output on its chip (R10, R54). -/
def localPin (pin : Nat) : Nat := pin % pinsPerChip

end Sys2Proof.Machine
end

