-- ==== Sys2Proof/Machine/Ops.lean ====
section
/-! DEFINITION. The shared operations: levels and merge, lines, the chain's reactions, PinWrite and PinRead, and the
ways a command begins, advances and ends (success, error, refusal, fault). -/

namespace Sys2Proof.Machine

/-! ### Levels -/

/-- A Bit as a known level (00_scope.md R9). -/
def levelOf (b : Bit) : Level := if b then .one else .zero

/-- `merge(a, b)` is `a` if `a = b`, else ⊥ (R9). -/
def merge (a b : Level) : Level := if a = b then a else .unknown

/-- `merge` on vectors, element by element (R9). -/
def mergeAll (a b : List Level) : List Level := List.zipWith merge a b

/-- A level as a visible output (10_state.md R36). -/
def outOf : Level → Out
  | .zero => .zero
  | .one => .one
  | .unknown => .unknown

/-- A vector of `n` unknown levels. -/
def unknowns (n : Nat) : List Level := List.replicate n .unknown

/-! ### Lines -/

/-- The role's number (20_memory.md R50); it appears in no response. -/
def roleNumber : Role → Nat
  | .latch => 0
  | .clock => 1
  | .data => 2
  | .oe => 3
  | .mr => 4

/-- The stored level of a role. -/
def Lines.get (l : Lines) : Role → Level
  | .latch => l.latch
  | .clock => l.clock
  | .data => l.data
  | .oe => l.oe
  | .mr => l.mr

/-- `LINE[r] <- v`. -/
def Lines.set (l : Lines) (r : Role) (v : Level) : Lines :=
  match r with
  | .latch => { l with latch := v }
  | .clock => { l with clock := v }
  | .data => { l with data := v }
  | .oe => { l with oe := v }
  | .mr => { l with mr := v }

/-- Whether `LINE[r]` exists: always for LATCH, CLOCK and DATA, for OE and MR by the configuration; before CONSTRUCT
R46 lists all five (R24, R26, R46). -/
def State.hasLine (s : State) (r : Role) : Bool :=
  match r, s.cfg with
  | .oe, some c => c.hasOE
  | .mr, some c => c.hasMR
  | _, _ => true

/-- `LINE[r]` as R46 lists it: absent where the role does not exist. -/
def State.lineLevel (s : State) (r : Role) : Option Level :=
  if s.hasLine r then some (s.line.get r) else none

/-- The level of an input line that may be tied outside: the line where it is managed, the tied level where it is not
(R29), ⊥ before CONSTRUCT (R46; DEDUCED, safe, log entry 9). -/
def effective (managed : Option Bit) (line : Level) (tied : Bit) : Level :=
  match managed with
  | none => .unknown
  | some m => if m then line else levelOf tied

/-- `oeEff` (R29). -/
def State.oeEff (s : State) : Level := effective (s.cfg.map (·.hasOE)) s.line.oe s.platform.oeTied

/-- `mrEff` (R29). -/
def State.mrEff (s : State) : Level := effective (s.cfg.map (·.hasMR)) s.line.mr s.platform.mrTied

/-! ### The chain -/

/-- `Q[i]` from `OUT[i]` and `oeEff` (R36, 60_exceptions.md R183). -/
def gate (oe out : Level) : Out :=
  match oe with
  | .zero => outOf out
  | .one => .z
  | .unknown => .unknown

/-- `Q[0 .. L-1]`, derived (R36). -/
def State.visible (s : State) : List Out := s.chain.out.map (gate s.oeEff)

/-- The chain-side phase, derived from `LINE[LATCH]` (R37). -/
def State.chainPhase (s : State) : ChainPhase :=
  match s.line.latch with
  | .zero => .shifting
  | .one => .idle
  | .unknown => .unknown

/-- `Edge(old, v)` of R174. -/
def edge (old : Level) (v : Bit) : Edge :=
  match old, v with
  | .zero, true => .yes
  | .unknown, true => .maybe
  | _, _ => .no

/-- `MrClear()` (R176): MR held low clears the stages, an unknown MR may; `OUT` keeps its value (R182). -/
def Chain.mrClear (mr : Level) (c : Chain) : Chain :=
  match mr with
  | .zero => { c with sr := c.sr.map fun _ => .zero }
  | .unknown => { c with sr := c.sr.map fun x => merge x .zero }
  | .one => c

/-- Whether a CLOCK edge shifts, from LATCH and `SHIFT_WHILE_LATCH_HIGH` (R175's `allowed`). -/
def shiftAllowed (whileHigh : Bool) (latch : Level) : Edge :=
  if whileHigh then .yes
  else match latch with
    | .zero => .yes
    | .one => .no
    | .unknown => .maybe

/-- R175's `e2`: both needed. -/
def bothEdges (e allowed : Edge) : Edge :=
  match e, allowed with
  | .yes, .yes => .yes
  | .no, _ => .no
  | _, .no => .no
  | _, _ => .maybe

/-- R175's `next`: DATA into stage 0 and each stage into the one after it; the last stage's bit leaves the model
(R180). -/
def shifted (data : Level) (sr : List Level) : List Level := (data :: sr).dropLast

/-- `ShiftEdge(e)` of R175, `e` already joined with `allowed`. -/
def Chain.shiftEdge (e : Edge) (data : Level) (c : Chain) : Chain :=
  match e with
  | .yes => { c with sr := shifted data c.sr }
  | .maybe => { c with sr := mergeAll c.sr (shifted data c.sr) }
  | .no => c

/-- `LatchEdge(e)` of R177. -/
def Chain.latchEdge (e : Edge) (c : Chain) : Chain :=
  match e with
  | .yes => { c with out := c.sr }
  | .maybe => { c with out := mergeAll c.out c.sr }
  | .no => c

/-- The edge reaction of a write to role `r` whose edge is `e`: CLOCK shifts, LATCH latches, the others none (R174,
R178). `s` is the state after `LINE[r] <- v`. -/
def edgeReaction (r : Role) (e : Edge) (s : State) (c : Chain) : Chain :=
  match r with
  | .clock => c.shiftEdge (bothEdges e (shiftAllowed s.platform.shiftWhileLatchHigh s.line.latch)) s.line.data
  | .latch => c.latchEdge e
  | .data => c
  | .oe => c
  | .mr => c

/-- `ChainReact(r, old, v)` of R174: the chain after `MrClear`, the edge, `MrClear`, in the state after `LINE[r] <- v`.
R174 runs `MrClear` also at a write that moves a line without an edge, of which 42_shift.md R134, R136, R137,
41_output_control.md and R178 say that the chain does not change. No stage that has a value changes by it, because while
MR is not high no stage is 1; with MR tied low such a write turns unknown stages into 0, after CONSTRUCT and after a
failed write ("while `mrEff = 0` the stages read 0", R176; DEDUCED, unsafe, log entry 8). -/
def chainReact (r : Role) (old : Level) (v : Bit) (s : State) : Chain :=
  (edgeReaction r (edge old v) s (s.chain.mrClear s.mrEff)).mrClear s.mrEff

/-! ### Line accesses -/

/-- `HIST <- HIST ++ [e]` (R39). -/
def State.record (s : State) (e : Event) : State := { s with hist := s.hist ++ [e] }

/-- `CHAIN.SR[*] <- ⊥`, `CHAIN.OUT[*] <- ⊥` (R51, R165). -/
def Chain.lost (c : Chain) : Chain := ⟨unknowns c.sr.length, unknowns c.out.length⟩

/-- R51 when the write takes place: the level, the event, the chain's reaction. It is performed whatever the line's
present level; writing the level already held is an event and changes nothing in `LINE` or `CHAIN` (R59), so the chain
reacts to the other writes only (R59 against R174's `MrClear`: DEDUCED, safe, log entry 22). -/
def drive (r : Role) (v : Bit) (s : State) : State :=
  let moved := { s with line := s.line.set r (levelOf v) }.record (.write r v)
  { moved with chain := if s.line.get r = levelOf v then s.chain else chainReact r (s.line.get r) v moved }

/-- R51 when the write fails: the line and the chain become ⊥, and no event is recorded (R171). -/
def loseWrite (r : Role) (s : State) : State :=
  { s with line := s.line.set r .unknown, chain := s.chain.lost }

/-- `PinWrite(r, v)` of R51, and whether it raises `PinIoError`. A draw is taken only when writes are fallible. -/
def pinWrite (r : Role) (v : Bit) (s : State) : Bool × State :=
  if s.platform.pinWritesFallible then
    if Config.writeFails s.draws then (true, loseWrite r { s with draws := s.draws + 1 })
    else (false, drive r v { s with draws := s.draws + 1 })
  else (false, drive r v s)

/-- `PinRead(r)` of R52: the level of the line, or a free draw that then stays the line's level. -/
def pinRead (r : Role) (s : State) : Bit × State :=
  match s.line.get r with
  | .zero => (false, s.record (.read r false))
  | .one => (true, s.record (.read r true))
  | .unknown =>
    (Config.freeLevel s.draws,
      ({ s with line := s.line.set r (levelOf (Config.freeLevel s.draws)), draws := s.draws + 1 }).record
        (.read r (Config.freeLevel s.draws)))

/-! ### How a command begins and ends -/

/-- The host issues a command: `Cmd(c)` (R39). -/
def State.issue (c : Command) (s : State) : State := s.record (.cmd c)

/-- A response is written on the response port: `SEQ.RESP` and `Resp(s)` (R33, R39). -/
def State.respond (resp : Response) (s : State) : State :=
  { s with seq := { s.seq with resp := some resp }, hist := s.hist ++ [.resp resp] }

/-- `SEQ` in a phase with no command in progress: `OPS` empty, `K` 0, `CMD` none (R31, R32; that `CMD` is cleared is
DEDUCED, log entry 6). -/
def Sequencer.rest (q : Sequencer) (p : Phase) : Sequencer := { q with phase := p, ops := [], k := 0, cmd := none }

/-- A command ends, by `return Ok` or by an error: no command in progress, phase IDLE, the response written (R138,
R160, R168). -/
def complete (resp : Response) (s : State) : State := ({ s with seq := s.seq.rest .idle }).respond resp

/-- `raise <Error>` (00_scope.md R11, 60_exceptions.md R168): the command ends at once with the error response. -/
def raise (error : Response) (s : State) : State := complete error s

/-- `MARKS <- MARKS + cause`, keeping the canonical form (R40). -/
def insertCause (c : Cause) : List Cause → List Cause
  | [] => [c]
  | m :: ms =>
    if c = m then m :: ms
    else if c.number < m.number then c :: m :: ms
    else m :: insertCause c ms

/-- A cause is added to `MARKS` (R40). -/
def State.mark (c : Cause) (s : State) : State := { s with marks := insertCause c s.marks }

/-- `refuse <Reason>` (R11, R164): nothing is done, the cause is marked, the refusal response is written; the phase
does not change. -/
def refuse (c : Cause) (s : State) : State := (s.mark c).respond (.ofCause c)

/-- The lines after the fault: ⊥ for every role but OE (R165, log entry 19). -/
def Lines.afterFault (l : Lines) : Lines := ⟨.unknown, .unknown, .unknown, l.oe, .unknown⟩

/-- The fault `ConcurrentCommand` (R165): FAULTED, the rest of the command in progress dropped, the lines but OE and
the chain ⊥, the cause marked, the response written. -/
def concurrentCommand (s : State) : State :=
  (({ s with
      seq := s.seq.rest .faulted
      line := s.line.afterFault
      chain := s.chain.lost }).mark .concurrentCommand).respond (.ofCause .concurrentCommand)

/-- Checks 1 to 3 of R167, before the command is decoded: FAULTED takes nothing, BUSY is the fault, DESTROYED is
refused; otherwise `k`. -/
def phaseGate (c : Command) (s : State) (k : Host.Outcome State Fault Refusal) : Host.Outcome State Fault Refusal :=
  match s.seq.phase with
  | .faulted => .fault .controllerFaulted
  | .busy => .next (concurrentCommand (s.issue c))
  | .destroyed => .next (refuse .destroyed (s.issue c))
  | .unconfigured => k
  | .idle => k

/-- Check 5 of R167: the refusal of a decoded command in the phase, if any. -/
def phaseRefusal (isConstruct : Bool) (p : Phase) : Option Cause :=
  match p, isConstruct with
  | .unconfigured, false => some .notConfigured
  | .idle, true => some .reconfigure
  | _, _ => none

/-- Checks 1, 2, 3 and 5 of R167 for a decoded command, then its own rule `k` on the state with the command issued. -/
def beginCommand (i : Instr) (s : State) (k : State → State) : Host.Outcome State Fault Refusal :=
  phaseGate (encode i) s <| .next <|
    match phaseRefusal i.isConstruct s.seq.phase with
    | some cause => refuse cause (s.issue (encode i))
    | none => k (s.issue (encode i))

/-- A validated command with micro-ops enters BUSY (42_shift.md R130, R31). -/
def enterBusy (i : Instr) (ops : List MicroOp) (s : State) : State :=
  { s with seq := { s.seq with phase := .busy, ops := ops, k := 0, cmd := some i } }

/-- After a micro-op: `SEQ.K <- SEQ.K + 1`, and when that reaches the end of the list the command completes with
`Ok` (R31, R138). -/
def advance (ok : Response) (s : State) : State :=
  if s.seq.k + 1 < s.seq.ops.length then { s with seq := { s.seq with k := s.seq.k + 1 } } else complete ok s

/-- The micro-op `PinWrite(r, v)` of the command in progress: performed, or ended by `PinIoError` (R31, R171). -/
def performWrite (r : Role) (v : Bit) (s : State) : State :=
  match pinWrite r v s with
  | (true, t) => raise (.ioError r) t
  | (false, t) => advance .success t

end Sys2Proof.Machine
end

