-- ==== Sys2Proof/Machine/Construct.lean ====
section
/-! DEFINITION. CONSTRUCT (40_construct.md). -/

namespace Sys2Proof.Machine

/-- The configuration and the chain that CONSTRUCT writes (R100); no line is touched. -/
def configure (hasOE hasMR : Bit) (n : Nat) (s : State) : State :=
  { s with
    cfg := some { chips := n, hasOE := hasOE, hasMR := hasMR }
    chain := { sr := unknowns (n * pinsPerChip), out := unknowns (n * pinsPerChip) } }

/-- CONSTRUCT (R100): refused as `BadChipCount` on a bad count (R102), and by `beginCommand` in a wrong phase (R101); it has
no micro-ops and completes in this step. -/
def execConstruct (hasOE hasMR : Bit) (n : Nat) (s : State) : Host.Outcome State Fault Refusal :=
  beginCommand (.construct hasOE hasMR n) s fun s =>
    if badChipCount s.platform n then refuse .badChipCount s
    else complete .success (configure hasOE hasMR n s)

end Sys2Proof.Machine
end

