-- ==== Sys2Proof/Machine/OutputControl.lean ====
section
/-! DEFINITION. ENABLE_OUTPUT, DISABLE_OUTPUT and IS_OUTPUT_ENABLED (41_output_control.md): each begins with the
micro-op `PinRead(OE)`, and what follows it depends on the level read (R31). -/

namespace Sys2Proof.Machine

/-- The common beginning: `UnmanagedPin(OE)` without an OE line, before any access (R110 to R112, R162), else BUSY
with the read. -/
def beginOE (i : Instr) (s : State) : State :=
  if s.hasOE then enterBusy i [.read .oe] s else raise (.unmanaged .oe) s

/-- ENABLE_OUTPUT (R110). -/
def execEnableOutput (s : State) : Host.Outcome State Fault Refusal :=
  beginCommand .enableOutput s (beginOE .enableOutput)

/-- DISABLE_OUTPUT (R111). -/
def execDisableOutput (s : State) : Host.Outcome State Fault Refusal :=
  beginCommand .disableOutput s (beginOE .disableOutput)

/-- IS_OUTPUT_ENABLED (R112). -/
def execIsOutputEnabled (s : State) : Host.Outcome State Fault Refusal :=
  beginCommand .isOutputEnabled s (beginOE .isOutputEnabled)

/-- Micro-op 1 of ENABLE_OUTPUT, present only when OE read 1 (R110). -/
def enableFollowUp (v : Bit) : List MicroOp := if v then [.write .oe false] else []

/-- Micro-op 1 of DISABLE_OUTPUT, present only when OE read 0 (R111). -/
def disableFollowUp (v : Bit) : List MicroOp := if v then [] else [.write .oe true]

/-- The micro-ops a read of `v` adds to the command in progress (R31). CONSTRUCT and SHIFT have no read. -/
def followUp (i : Option Instr) (v : Bit) : List MicroOp :=
  match i with
  | some .enableOutput => enableFollowUp v
  | some .disableOutput => disableFollowUp v
  | some .isOutputEnabled => []
  | some (.construct _ _ _) => []
  | some (.shift _ _) => []
  | none => []

/-- The response with which a command completes if the read of `v` was its last micro-op: IS_OUTPUT_ENABLED answers 1
iff OE reads low (R112, R79). -/
def readResponse (i : Option Instr) (v : Bit) : Response :=
  match i with
  | some .isOutputEnabled => .answer (!v)
  | some .enableOutput => .success
  | some .disableOutput => .success
  | some (.construct _ _ _) => .success
  | some (.shift _ _) => .success
  | none => .success

/-- The micro-op `PinRead(r)` of the command in progress: the read, what it adds to `SEQ.OPS`, and the advance (R31,
R52, R110 to R112). -/
def performRead (r : Role) (s : State) : State :=
  match pinRead r s with
  | (v, t) =>
    advance (readResponse t.seq.cmd v) { t with seq := { t.seq with ops := t.seq.ops ++ followUp t.seq.cmd v } }

end Sys2Proof.Machine
end

