-- ==== Sys2Proof/Machine/Shift.lean ====
section
/-! DEFINITION. SHIFT (42_shift.md). -/

namespace Sys2Proof.Machine

/-- Step 1, the reset pulse, only when `reset = 1` (R133). -/
def resetPulse (reset : Bit) : List MicroOp := if reset then [.write .mr false, .write .mr true] else []

/-- One pass of step 4 for the bit `b` (R136). -/
def bitPass (b : Bit) : List MicroOp :=
  [.write .clock false, .write .data b, .write .clock true, .write .data false]

/-- `ShiftOps(bits, reset)` of R132: the pulse, the rest state and LATCH low (R134, R135), the passes in reverse index
order (R136), CLOCK low (R137), LATCH high (R138). -/
def shiftOps (bits : List Bit) (reset : Bit) : List MicroOp :=
  resetPulse reset ++ [.write .clock false, .write .data false] ++ [.write .latch false] ++
    bits.reverse.flatMap bitPass ++ [.write .clock false] ++ [.write .latch true]

/-- SHIFT after the phase checks (R130): `InvalidLength` first, then `UnmanagedPin(MR)`, both before any line is
touched (R131, R161, R163, R167), else BUSY with `ShiftOps`. -/
def beginShift (reset : Bit) (bits : List Bit) (s : State) : State :=
  if bits.length ≠ s.stages then raise (.lengthError s.stages bits.length) s
  else if reset && !s.hasMR then raise (.unmanaged .mr) s
  else enterBusy (.shift reset bits) (shiftOps bits reset) s

/-- SHIFT (R130): the step that accepts and validates; `microStep` then performs one micro-op a step (R143). -/
def execShift (reset : Bit) (bits : List Bit) (s : State) : Host.Outcome State Fault Refusal :=
  beginCommand (.shift reset bits) s (beginShift reset bits)

end Sys2Proof.Machine
end

