-- ==== Sys2Proof/Machine/Dispatch.lean ====
section
/-! DEFINITION. One arm per command of 30_encoding.md R75, each one call of its meaning. -/

namespace Sys2Proof.Machine

def exec (i : Instr) (s : State) : Host.Outcome State Fault Refusal :=
  match i with
  | .construct hasOE hasMR n => Sys2Proof.Machine.execConstruct hasOE hasMR n s
  | .enableOutput => Sys2Proof.Machine.execEnableOutput s
  | .disableOutput => Sys2Proof.Machine.execDisableOutput s
  | .isOutputEnabled => Sys2Proof.Machine.execIsOutputEnabled s
  | .shift reset bits => Sys2Proof.Machine.execShift reset bits s

end Sys2Proof.Machine
end

