-- ==== Sys2Proof/Machine/Sequencer.lean ====
section
/-! DEFINITION. The steps that are not inside one instruction: one micro-op of the command in progress, taking a
presented command, the end of life, and which of them a step is. -/

namespace Sys2Proof.Machine

/-- Perform `SEQ.OPS[SEQ.K]` (10_state.md R31). An index at or past the end is the command's completion by R31; no
reachable state has one (DEDUCED, log entry 14). -/
def microStep (s : State) : State :=
  match s.seq.ops[s.seq.k]? with
  | some (.write r v) => performWrite r v s
  | some (.read r) => performRead r s
  | none => complete .success s

/-- The host presents a record: checks 1 to 4 of 60_exceptions.md R167, then the command (R164, R165). -/
def takeCommand (c : Command) (s : State) : Host.Outcome State Fault Refusal :=
  phaseGate c s <|
    match decode c with
    | .ok i => exec i s
    | .rejected _ => .next (refuse .illegalCommand (s.issue c))

/-- End of life (70_reset_and_hazards.md R205): DESTROYED, nothing else changes, no event. -/
def endOfLife (s : State) : State := { s with seq := { s.seq with phase := .destroyed } }

/-- A step in which the host does nothing: the next micro-op when BUSY; none when FAULTED (R165); otherwise the
controller takes no step and nothing changes (R188; the stutter is log entry 4). -/
def proceed (s : State) : Host.Outcome State Fault Refusal :=
  match s.seq.phase with
  | .busy => .next (microStep s)
  | .faulted => .fault .controllerFaulted
  | .unconfigured => .next s
  | .idle => .next s
  | .destroyed => .next s

/-- One step of host and controller: the host's next action, if it can take place in this phase (log entry 3), else a
step of the controller. -/
def turn (s : State) : Host.Outcome State Fault Refusal :=
  match s.host with
  | [] => proceed s
  | .pass :: rest => proceed { s with host := rest }
  | .present c :: rest => takeCommand c { s with host := rest }
  | .call c :: rest => if s.seq.phase = .busy then proceed s else takeCommand c { s with host := rest }
  | .release :: rest =>
    match s.seq.phase with
    | .busy => proceed s
    | .faulted => .fault .controllerFaulted
    | .unconfigured => .next (endOfLife { s with host := rest })
    | .idle => .next (endOfLife { s with host := rest })
    | .destroyed => .next (endOfLife { s with host := rest })

/-- The command port with a record waiting to be presented in the next step. -/
def presentNext (c : Command) (s : State) : State := { s with host := .present c :: s.host }

end Sys2Proof.Machine
end

