-- ==== Sys2Proof/Machine/Step.lean ====
section
/-! DEFINITION. One step of the machine, and how the host's check puts a command where the next step takes it. -/

namespace Sys2Proof.Machine

/-- One step (10_state.md R31, 42_shift.md R143). -/
def step (s : State) : Host.Outcome State Fault Refusal := turn s

/-- `s` with the record of a table word presented in its next step: a program is loaded from outside the machine, by
the host presenting commands (20_memory.md R64, 70_reset_and_hazards.md R202; log entries 3 and 11). -/
def State.withFetchWord (s : State) (nbits w : Nat) : State := presentNext (recordOfTableWord nbits w) s

end Sys2Proof.Machine
end

