-- ==== Sys2Proof/WellFormed.lean ====
section
/-! DEFINITION. Which commands lie in the source's domain. -/

namespace Sys2Proof

/-- A CONSTRUCT is well formed when its chip count is at least 1, the domain D0 gives it (00_scope.md R7, 30_encoding.md
R72); a zero count can be encoded and is refused when it runs (40_construct.md R102). Every other command is well
formed whatever its operands: a SHIFT of the wrong length decodes and is an error of its execution (R76, R131). -/
def Instr.wellFormed : Instr → Bool
  | .construct _ _ chipCount => decide (1 ≤ chipCount)
  | .enableOutput => true
  | .disableOutput => true
  | .isOutputEnabled => true
  | .shift _ _ => true

end Sys2Proof
end

