-- ==== Sys2Proof/Safety.lean ====
section
/-! DEFINITION. The terms in which claims speak: a ready controller, a host that does not intrude, the end of a run, the
invariant, and how a recorded history is read. -/

namespace Sys2Proof.Machine

/-- `k` steps of the machine, stopping at the first fault or refusal; the same as the host's `Host.Core.run` of
`Sys2Proof.core`. -/
def runs : Nat → State → Host.Outcome State Fault Refusal
  | 0, s => .next s
  | k + 1, s =>
    match step s with
    | .next t => runs k t
    | .fault f => .fault f
    | .refused r => .refused r

/-- The host's next action cannot fall inside a command in progress: it has none, or one that waits while the
controller is BUSY (the serialized host of 60_exceptions.md R184). -/
def hostBlocks : List HostAction → Bool
  | [] => true
  | .call _ :: _ => true
  | .release :: _ => true
  | .present _ :: _ => false
  | .pass :: _ => false

/-- No line write fails from here on: writes are not fallible, or every draw still to come lets its write take place
(20_memory.md R51, 60_exceptions.md R171). -/
def State.WritesSucceed (s : State) : Prop :=
  s.platform.pinWritesFallible = false ∨ ∀ n, s.draws ≤ n → Config.writeFails n = false

/-- The controller is IDLE with configuration `c`, writes do not fail, and the host does not intrude: the premises
under which a validated command runs to its end (60_exceptions.md R160, 42_shift.md R140 "no fault occurs"). -/
structure State.Ready (s : State) (c : Cfg) : Prop where
  idle       : s.seq.phase = .idle
  configured : s.cfg = some c
  noFailure  : s.WritesSucceed
  blocks     : hostBlocks s.host = true

/-- The controller is at rest after a command that ended with the response `r`: IDLE, no micro-op left (10_state.md
R30, R31, R33). -/
structure State.EndedWith (s : State) (r : Response) : Prop where
  idle : s.seq.phase = .idle
  ops  : s.seq.ops = []
  k    : s.seq.k = 0
  resp : s.seq.resp = some r

/-- `t` has the configuration, marks, parameters and pending host actions of `s`. -/
structure State.SameSetting (s t : State) : Prop where
  cfg      : t.cfg = s.cfg
  marks    : t.marks = s.marks
  platform : t.platform = s.platform
  host     : t.host = s.host

/-- The level the next `PinRead(OE)` returns: the line's level, or the free draw of 20_memory.md R52. -/
def State.oeReads (s : State) : Bit :=
  match s.line.oe with
  | .zero => false
  | .one => true
  | .unknown => Config.freeLevel s.draws

/-- A claim about a run takes "no mark recorded" and "not FAULTED" as premises (60_exceptions.md R160). -/
def State.Unmarked (s : State) : Prop := s.marks = [] ∧ s.seq.phase ≠ .faulted

/-- Whether a host action presents a command; the end of life is "a host action, not a command" (70_reset_and_hazards.md
R205), and doing nothing is none either. -/
def HostAction.isCommand : HostAction → Bool
  | .present _ => true
  | .call _ => true
  | .release => false
  | .pass => false

/-- A run is over when the phase is IDLE, UNCONFIGURED or DESTROYED and the host presents no further command
(70_reset_and_hazards.md R206). -/
def State.RunOver (s : State) : Prop :=
  (s.seq.phase = .idle ∨ s.seq.phase = .unconfigured ∨ s.seq.phase = .destroyed) ∧
    ∀ a ∈ s.host, a.isCommand = false

/-- The reserved encodings of 30_encoding.md R77, read off the numbers of the record. -/
def Reserved (c : Command) : Prop :=
  c.hdr.toNat % 8 = 5 ∨ c.hdr.toNat % 8 = 6 ∨ c.hdr.toNat % 8 = 7 ∨ 64 ≤ c.hdr.toNat ∨
    (c.hdr.toNat.testBit 3 = true ∧ c.hdr.toNat % 8 ≠ 4) ∨
    ((c.hdr.toNat.testBit 4 = true ∨ c.hdr.toNat.testBit 5 = true) ∧ c.hdr.toNat % 8 ≠ 0) ∨
    (c.count ≠ 0 ∧ c.hdr.toNat % 8 ≠ 0) ∨ (c.bits ≠ [] ∧ c.hdr.toNat % 8 ≠ 4)

/-- When a record is refused, and as what: the table of 60_exceptions.md R164 with the order of R167. -/
inductive RefusedAs (s : State) (c : Command) : Cause → Prop where
  | destroyed (h : s.seq.phase = .destroyed) : RefusedAs s c .destroyed
  | illegal (h : s.seq.phase = .unconfigured ∨ s.seq.phase = .idle) (r : Reserved c) : RefusedAs s c .illegalCommand
  | notConfigured (h : s.seq.phase = .unconfigured) (i : Instr) (d : decode c = .ok i)
      (n : i.isConstruct = false) : RefusedAs s c .notConfigured
  | reconfigure (h : s.seq.phase = .idle) (o m : Bit) (n : Nat) (d : decode c = .ok (.construct o m n)) :
      RefusedAs s c .reconfigure
  | badChipCount (h : s.seq.phase = .unconfigured) (o m : Bit) (n : Nat) (d : decode c = .ok (.construct o m n))
      (b : n = 0 ∨ ∃ most, s.platform.maxChips = some most ∧ most < n) : RefusedAs s c .badChipCount

/-- The event of a micro-op that is a write. -/
def writeEvents : List MicroOp → List Event
  | [] => []
  | .write r v :: ops => .write r v :: writeEvents ops
  | .read _ :: ops => writeEvents ops

/-- The DATA level at each `Write(CLOCK, 1)` event, in order, reading a recorded history from a DATA level (42_shift.md
R144). -/
def clockEdgeData (data : Level) : List Event → List Level
  | [] => []
  | .write .data v :: es => clockEdgeData (levelOf v) es
  | .write .clock true :: es => data :: clockEdgeData data es
  | _ :: es => clockEdgeData data es

/-- The last response in a history (10_state.md R33). -/
def lastResponse : List Event → Option Response
  | [] => none
  | .resp r :: es => some ((lastResponse es).getD r)
  | _ :: es => lastResponse es

/-- How many commands the host has issued, in a history (R39). -/
def commandCount (h : List Event) : Nat := h.countP fun e => match e with | .cmd _ => true | _ => false

/-- How many responses were written, in a history (R39). -/
def responseCount (h : List Event) : Nat := h.countP fun e => match e with | .resp _ => true | _ => false

/-- The commands that have had no response: the one in progress, or the one the fault cut off. -/
def State.unanswered (s : State) : Nat := if s.seq.phase = .busy ∨ s.seq.phase = .faulted then 1 else 0

/-- How many writes of `v` to role `r` a micro-op list holds (42_shift.md R139). -/
def writeCount (r : Role) (v : Bit) (ops : List MicroOp) : Nat := ops.countP (· == .write r v)

/-- The last Bit a micro-op list writes to role `r`. -/
def lastWritten (r : Role) (ops : List MicroOp) : Option Bit :=
  ops.foldl (fun last op => match op with | .write q v => if q = r then some v else last | .read _ => last) none

/-- The command in progress and its micro-op list belong together (10_state.md R31, R32): CONSTRUCT is never in
progress, a SHIFT has its whole list, an OE command its read and then perhaps its write. -/
def State.InProgress (s : State) : Prop :=
  match s.seq.cmd with
  | some (.shift reset bits) =>
    s.seq.ops = shiftOps bits reset ∧ s.seq.k < s.seq.ops.length ∧ bits.length = s.stages ∧
      (reset = true → s.hasMR = true)
  | some .enableOutput =>
    s.hasOE = true ∧
      (s.seq.ops = [.read .oe] ∧ s.seq.k = 0 ∨ s.seq.ops = [.read .oe, .write .oe false] ∧ s.seq.k = 1)
  | some .disableOutput =>
    s.hasOE = true ∧
      (s.seq.ops = [.read .oe] ∧ s.seq.k = 0 ∨ s.seq.ops = [.read .oe, .write .oe true] ∧ s.seq.k = 1)
  | some .isOutputEnabled => s.hasOE = true ∧ s.seq.ops = [.read .oe] ∧ s.seq.k = 0
  | some (.construct _ _ _) => False
  | none => False

/-- The invariant of the machine. -/
structure State.Inv (s : State) : Prop where
  /-- The chip count is one CONSTRUCT accepts (10_state.md R21, 40_construct.md R102). -/
  chipCount   : ∀ c, s.cfg = some c → badChipCount s.platform c.chips = false
  /-- IDLE, BUSY and FAULTED have a configuration (R30). -/
  configured  : s.seq.phase = .idle ∨ s.seq.phase = .busy ∨ s.seq.phase = .faulted → s.cfg ≠ none
  /-- UNCONFIGURED has none, and no line has a level (R27, R46). -/
  fresh       : s.seq.phase = .unconfigured → s.cfg = none ∧ ∀ r, s.line.get r = .unknown
  /-- A line that does not exist has no level (R24, R26). -/
  absentLine  : ∀ r, s.hasLine r = false → s.line.get r = .unknown
  /-- The chain has `L` stages and `L` latches (R34, R35). -/
  stages      : s.chain.sr.length = s.stages ∧ s.chain.out.length = s.stages
  /-- Outside BUSY, `OPS` is empty, `K` is 0 and no command is in progress (R31, R32). -/
  resting     : s.seq.phase ≠ .busy → s.seq.ops = [] ∧ s.seq.k = 0 ∧ s.seq.cmd = none
  /-- In BUSY the command in progress and its micro-ops belong together (R31, R32). -/
  inProgress  : s.seq.phase = .busy → s.InProgress
  /-- A line holds the level the command in progress last wrote to it (R28). -/
  linesHeld   : ∀ r v, lastWritten r (s.seq.ops.take s.seq.k) = some v → s.line.get r = levelOf v
  /-- `MARKS` is in canonical form (R40). -/
  marks       : s.marks.Pairwise (fun a b => a.number < b.number)
  /-- FAULTED exactly when the fault is marked (R165). -/
  faultMarked : s.seq.phase = .faulted ↔ Cause.concurrentCommand ∈ s.marks
  /-- `SEQ.RESP` is the last response written (R33). -/
  response    : s.seq.resp = lastResponse s.hist

/-- While MR is not known to be high no stage is known to hold a 1 (60_exceptions.md R176, 92_eei_decisions.md D17 "MR at
0 holds SR at 0"). -/
def State.StagesHeldLow (s : State) : Prop := s.mrEff ≠ .one → ∀ x ∈ s.chain.sr, x ≠ .one

/-- The lines and the chain are all a SHIFT needs to deliver its pattern: MR is high at every CLOCK edge (42_shift.md
R140): with `reset`, or by the line, or by the tie. -/
def State.MrHigh (s : State) (c : Cfg) (reset : Bit) : Prop :=
  reset = true ∨ (c.hasMR = true ∧ s.line.mr = .one) ∨ (c.hasMR = false ∧ s.platform.mrTied = true)

/-- The status the first failing check of 60_exceptions.md R167 reports for a record taken in a phase other than
FAULTED; none when every check before the micro-ops passes. -/
def firstFailing (s : State) (c : Command) : Option Status :=
  if s.seq.phase = .busy then some .concurrentCommand
  else if s.seq.phase = .destroyed then some .destroyed
  else match decode c with
    | .rejected _ => some .illegalCommand
    | .ok (.construct _ _ n) =>
      if s.seq.phase = .idle then some .reconfigure
      else if n = 0 then some .badChipCount
      else match s.platform.maxChips with
        | some most => if most < n then some .badChipCount else none
        | none => none
    | .ok (.shift reset bits) =>
      if s.seq.phase = .unconfigured then some .notConfigured
      else if bits.length ≠ s.stages then some .invalidLength
      else if reset = true ∧ s.hasMR = false then some .unmanagedPin
      else none
    | .ok .enableOutput =>
      if s.seq.phase = .unconfigured then some .notConfigured
      else if s.hasOE = false then some .unmanagedPin else none
    | .ok .disableOutput =>
      if s.seq.phase = .unconfigured then some .notConfigured
      else if s.hasOE = false then some .unmanagedPin else none
    | .ok .isOutputEnabled =>
      if s.seq.phase = .unconfigured then some .notConfigured
      else if s.hasOE = false then some .unmanagedPin else none

end Sys2Proof.Machine
end

