-- ==== Sys2Proof/Certificates/Slice0/Obligations.lean ====
section
/-! DEFINITION. The statements for the provers, in the order of spec/. Every statement holds for every value of the
parameters of 00_scope.md R8 that it does not name, and for every value of the free draws. -/

open Sys2Proof Sys2Proof.Machine

/-! ### State, reset, derived views -/

/-- 70_reset_and_hazards.md R200: the state at instantiation. -/
def Obligations.ResetIsInstantiation : Prop :=
  State.reset.seq.phase = .unconfigured ∧ State.reset.cfg = none ∧
    (∀ r, State.reset.lineLevel r = some .unknown) ∧
    State.reset.chain.sr = [] ∧ State.reset.chain.out = [] ∧ State.reset.visible = [] ∧
    State.reset.seq.ops = [] ∧ State.reset.seq.k = 0 ∧ State.reset.seq.cmd = none ∧ State.reset.seq.resp = none ∧
    State.reset.hist = [] ∧ State.reset.marks = []

/-- The invariants hold at reset. -/
def Obligations.ResetSatisfiesInvariant : Prop := State.reset.Inv ∧ State.reset.StagesHeldLow

/-- The invariant is kept by every step from every state that meets it. -/
def Obligations.StepKeepsInvariant : Prop := ∀ s t : State, s.Inv → step s = .next t → t.Inv

/-- 10_state.md R29 and R36: the outputs show the latches when OE is low, are not driven when it is high, are unknown
when it is unknown; OE and MR are the line where it is managed and the tied level where it is not. -/
def Obligations.VisibleOutputsFollowOE : Prop :=
  ∀ (s : State) (c : Cfg), s.cfg = some c →
    s.oeEff = (if c.hasOE then s.line.oe else if s.platform.oeTied then .one else .zero) ∧
    s.mrEff = (if c.hasMR then s.line.mr else if s.platform.mrTied then .one else .zero) ∧
    s.visible.length = s.chain.out.length ∧
    ∀ (i : Nat) (v : Level), s.chain.out[i]? = some v →
      (s.oeEff = .one → s.visible[i]? = some .z) ∧ (s.oeEff = .unknown → s.visible[i]? = some .unknown) ∧
      (s.oeEff = .zero → s.visible[i]? = some (match v with | .zero => .zero | .one => .one | .unknown => .unknown))

/-- 10_state.md R39 and R40: the history and the marks only grow, and the parameters never change. -/
def Obligations.HistoryAndMarksOnlyGrow : Prop :=
  ∀ s t : State, step s = .next t →
    (∃ more, t.hist = s.hist ++ more) ∧ (∀ m, m ∈ s.marks → m ∈ t.marks) ∧ t.platform = s.platform

/-- 10_state.md R24: `CFG` is written by CONSTRUCT only, and read-only afterwards. -/
def Obligations.ConfigurationIsWrittenOnce : Prop :=
  ∀ s t : State, s.Inv → step s = .next t →
    (∀ c, s.cfg = some c → t.cfg = some c) ∧
    (t.cfg ≠ s.cfg → ∃ o m n, t.cfg = some ⟨n, o, m⟩ ∧ s.seq.phase = .unconfigured ∧
      t.hist = s.hist ++ [.cmd (encode (.construct o m n)), .resp ⟨.ok, false, 0, 0, none⟩])

/-- 10_state.md R38: no controller state but the chain depends on the chain: with another chain the same step is
taken, and everything else comes out the same. -/
def Obligations.ControllerIsBlindToChain : Prop :=
  ∀ (s : State) (other : Chain),
    (∀ t, step s = .next t → ∃ chain, step { s with chain := other } = .next { t with chain := chain }) ∧
    (∀ f, step s = .fault f → step { s with chain := other } = .fault f)

/-- 10_state.md R33, 60_exceptions.md R170: one response per command taken: the commands issued are the responses
written and the one command that is in progress or was cut off by the fault. -/
def Obligations.OneResponsePerCommand : Prop :=
  ∀ s t : State, commandCount s.hist = responseCount s.hist + s.unanswered → step s = .next t →
    commandCount t.hist = responseCount t.hist + t.unanswered

/-! ### Lines and the chain's reactions -/

/-- 10_state.md R28: a line changes only when the command in progress writes it, when a read fixes an unknown level,
or when the fault makes a line other than OE unknown. -/
def Obligations.LinesKeepTheirLevel : Prop :=
  ∀ (s t : State) (r : Role), step s = .next t → t.line.get r ≠ s.line.get r →
    s.seq.phase = .busy ∧
      ((∃ v, s.seq.ops[s.seq.k]? = some (.write r v)) ∨
        (s.seq.ops[s.seq.k]? = some (.read r) ∧ s.line.get r = .unknown) ∨
        (t.seq.phase = .faulted ∧ r ≠ .oe ∧ t.line.get r = .unknown))

/-- 20_memory.md R52: a read of a known level returns it; a read of ⊥ returns some Bit and that Bit is the line's
level from then on; no other line, and nothing of the chain, moves. -/
def Obligations.ReadReturnsTheLevelAndFixesIt : Prop :=
  ∀ (r : Role) (s : State), ∃ v,
    (pinRead r s).1 = v ∧ (s.line.get r ≠ .unknown → s.line.get r = levelOf v) ∧
    (pinRead r s).2.line.get r = levelOf v ∧ (pinRead r (pinRead r s).2).1 = v ∧
    (∀ q, q ≠ r → (pinRead r s).2.line.get q = s.line.get q) ∧
    (pinRead r s).2.hist = s.hist ++ [.read r v] ∧ (pinRead r s).2.chain = s.chain ∧
    (pinRead r s).2.cfg = s.cfg ∧ (pinRead r s).2.seq = s.seq ∧ (pinRead r s).2.marks = s.marks

/-- 60_exceptions.md R175, R180: with MR high, a CLOCK write of 1 onto 0 shifts DATA into stage 0 and every stage into
the next, when shifting is allowed; from an unknown level it may (R179); otherwise no stage moves. -/
def Obligations.ClockEdgeShiftsOneStage : Prop :=
  ∀ (s : State) (v : Bit), s.mrEff = .one →
    let t := drive .clock v s
    let moves := s.platform.shiftWhileLatchHigh = true ∨ s.line.latch = .zero
    let still := s.platform.shiftWhileLatchHigh = false ∧ s.line.latch = .one
    t.chain.out = s.chain.out ∧ t.chain.sr.length = s.chain.sr.length ∧
    (v = true → s.line.clock = .zero → moves →
      (0 < s.chain.sr.length → t.chain.sr[0]? = some s.line.data) ∧
      ∀ k, k + 1 < s.chain.sr.length → t.chain.sr[k + 1]? = s.chain.sr[k]?) ∧
    (v = true → s.line.clock = .unknown ∧ ¬still ∨ s.line.clock = .zero ∧ ¬moves ∧ ¬still →
      (∀ x, s.chain.sr[0]? = some x → t.chain.sr[0]? = some (merge x s.line.data)) ∧
      ∀ k x y, s.chain.sr[k]? = some x → s.chain.sr[k + 1]? = some y → t.chain.sr[k + 1]? = some (merge y x)) ∧
    (v = false ∨ s.line.clock = .one ∨ still → t.chain.sr = s.chain.sr)

/-- 60_exceptions.md R174, R176, R182: after a write that moves a line while MR is low every stage reads 0; while MR is
unknown no stage reads 1; the latches keep their value unless the write is a LATCH write of 1. A write of the level
already held leaves the chain as it was (20_memory.md R59, which log entry 22 puts before R174's `MrClear`). That
`MrClear` runs also at a write that moves a line without an edge (OE, DATA, a falling write), of which 41_output_control.md and
R178 say that the chain does not change, is the model's reading of R174 (log entry 8). -/
def Obligations.LowResetClearsTheStagesOnly : Prop :=
  ∀ (s : State) (r : Role) (v : Bit),
    (s.line.get r ≠ levelOf v →
      ((drive r v s).mrEff = .zero → ∀ x ∈ (drive r v s).chain.sr, x = .zero) ∧
      ((drive r v s).mrEff = .unknown → ∀ x ∈ (drive r v s).chain.sr, x ≠ .one)) ∧
    (s.line.get r = levelOf v → (drive r v s).chain = s.chain ∧ (drive r v s).mrEff = s.mrEff) ∧
    (r ≠ .latch ∨ v = false → (drive r v s).chain.out = s.chain.out)

/-- 60_exceptions.md R177: a LATCH write of 1 onto 0 copies the stages into the latches at once; from an unknown level
it may; no other write, of any role, changes a latch. -/
def Obligations.OnlyTheLatchEdgeCopies : Prop :=
  ∀ (s : State) (r : Role) (v : Bit),
    (r = .latch → v = true → s.line.latch = .zero → (drive r v s).chain.out = (drive r v s).chain.sr) ∧
    (r = .latch → v = true → s.line.latch = .unknown →
      (drive r v s).chain.out = mergeAll s.chain.out (drive r v s).chain.sr) ∧
    (r ≠ .latch ∨ v = false ∨ s.line.latch = .one → (drive r v s).chain.out = s.chain.out)

/-- 60_exceptions.md R176, over every step: from every state where MR, if it is not high, leaves no stage at 1, a step
leads to such a state: what the writes, a read, a failed write, CONSTRUCT and the fault leave. -/
def Obligations.MasterResetHoldsTheStages : Prop :=
  ∀ s t : State, s.StagesHeldLow → step s = .next t → t.StagesHeldLow

/-- 20_memory.md R59: a write of the level already held changes nothing in `LINE` or `CHAIN`, whatever MR is, but is
still an event. 60_exceptions.md R178: a write to DATA, OE or MR and a falling write leave every latch alone, and with MR
high the whole chain. But for a write to MR, they change no known bit of the chain whatever MR is, from every state of
MasterResetHoldsTheStages: with MR not low they leave the whole chain alone, and with MR low every stage, which was 0 or
unknown (R9: "no value known"), is 0 if the write moved the line. That an unknown stage is 0 after such a write is R174's
`MrClear` (log entry 8); that R59 comes before it is log entry 22. -/
def Obligations.WritesWithoutAnEdgeLeaveTheChain : Prop :=
  ∀ (s : State) (r : Role) (v : Bit),
    (s.line.get r = levelOf v → (drive r v s).line = s.line ∧ (drive r v s).chain = s.chain ∧
      (drive r v s).hist = s.hist ++ [.write r v]) ∧
    (r = .data ∨ r = .oe ∨ r = .mr ∨ v = false →
      ((drive r v s).mrEff = .one → (drive r v s).chain = s.chain) ∧
      (drive r v s).chain.out = s.chain.out ∧ (drive r v s).hist = s.hist ++ [.write r v] ∧
      (s.StagesHeldLow → r ≠ .mr →
        (s.mrEff ≠ .zero → (drive r v s).chain = s.chain) ∧
        (s.mrEff = .zero → s.line.get r ≠ levelOf v → ∀ (k : Nat) (x : Level), s.chain.sr[k]? = some x →
          (drive r v s).chain.sr[k]? = some .zero ∧ (x = .zero ∨ x = .unknown))))

/-- 60_exceptions.md R177 "OUT changes at no other time", over every step: the latches change only when CONSTRUCT makes
the chain, at the LATCH write of a command in progress, which copies the stages, and when a failed write or the fault
loses the chain. -/
def Obligations.LatchesChangeAtNoOtherTime : Prop :=
  ∀ s t : State, s.Inv → step s = .next t → t.chain.out ≠ s.chain.out →
    (s.seq.phase = .unconfigured ∧ s.cfg = none ∧
      ∃ o m n, t.cfg = some ⟨n, o, m⟩ ∧ t.chain.out = List.replicate (n * 8) .unknown ∧
        t.hist = s.hist ++ [.cmd (encode (.construct o m n)), .resp ⟨.ok, false, 0, 0, none⟩]) ∨
      (s.seq.phase = .busy ∧
        ((s.seq.ops[s.seq.k]? = some (.write .latch true) ∧ t.chain.out = t.chain.sr ∧
            ∃ more, t.hist = s.hist ++ .write .latch true :: more) ∨
          (t.chain.out = unknowns s.chain.out.length ∧
            (t.seq.phase = .faulted ∨ (s.platform.pinWritesFallible = true ∧ t.seq.phase = .idle)))))

/-- 60_exceptions.md R179 "No SHIFT reaches this case" and R181: in a state that meets the invariant, a CLOCK or LATCH
write of 1 always starts from 0, and a CLOCK edge always finds LATCH at 0. -/
def Obligations.NoCommandMakesAnUnknownEdge : Prop :=
  ∀ (s : State) (r : Role), s.Inv → s.seq.phase = .busy → r = .clock ∨ r = .latch →
    s.seq.ops[s.seq.k]? = some (.write r true) → s.line.get r = .zero ∧ s.line.latch = .zero

/-- 60_exceptions.md R181: `SHIFT_WHILE_LATCH_HIGH` changes no result of any step from a state that meets the
invariant. -/
def Obligations.ShiftWhileLatchHighIsNeverSeen : Prop :=
  ∀ (s t : State) (flag : Bool), s.Inv → step s = .next t →
    step { s with platform := { s.platform with shiftWhileLatchHigh := flag } } =
      .next { t with platform := { t.platform with shiftWhileLatchHigh := flag } }

/-! ### Encoding -/

/-- 30_encoding.md R72, R73, R76: decode and encode agree, both ways: every command has one record and every record
that decodes is the record of its command. -/
def Obligations.DecodeInvertsEncode : Prop :=
  (∀ i, decode (encode i) = .ok i) ∧ (∀ c i, decode c = .ok i → encode i = c)

/-- 30_encoding.md R78 and 95_test_vectors.md §2.1: the spec's records decode to the commands they stand for. -/
def Obligations.SpecRecordsDecode : Prop :=
  decode ⟨0x10#8, 2, []⟩ = .ok (.construct true false 2) ∧ decode ⟨0x20#8, 1, []⟩ = .ok (.construct false true 1) ∧
    decode ⟨0x01#8, 0, []⟩ = .ok .enableOutput ∧ decode ⟨0x02#8, 0, []⟩ = .ok .disableOutput ∧
    decode ⟨0x03#8, 0, []⟩ = .ok .isOutputEnabled ∧ decode ⟨0x04#8, 0, [true, false]⟩ = .ok (.shift false [true, false]) ∧
    decode ⟨0x0C#8, 0, [true]⟩ = .ok (.shift true [true])

/-- 30_encoding.md R75: the opcode map's rows, their disjointness, and the nine header values in use. -/
def Obligations.OpcodeMapIsDisjoint : Prop :=
  opcodeMap.map (fun row => (row.mnemonic, row.pattern, row.mask, row.format)) =
      [("CONSTRUCT", 0x00#8, 0xCF#8, .cfg), ("ENABLE_OUTPUT", 0x01#8, 0xFF#8, .none),
        ("DISABLE_OUTPUT", 0x02#8, 0xFF#8, .none), ("IS_OUTPUT_ENABLED", 0x03#8, 0xFF#8, .none),
        ("SHIFT", 0x04#8, 0xF7#8, .shf)] ∧
    (∀ h : Header, ∀ a ∈ opcodeMap, ∀ b ∈ opcodeMap, a.selects h = true → b.selects h = true → a = b) ∧
    (∀ h : Header, (∃ row ∈ opcodeMap, row.selects h = true) ↔
      h ∈ [0x00#8, 0x10#8, 0x20#8, 0x30#8, 0x01#8, 0x02#8, 0x03#8, 0x04#8, 0x0C#8])

/-- 30_encoding.md R72, R75, R76: a record decodes to a command of mnemonic `m` exactly when its header selects the row
of `m` and its operands fit that row's format. -/
def Obligations.DecoderFollowsTheOpcodeMap : Prop :=
  ∀ (c : Command) (m : String),
    (∃ i, decode c = .ok i ∧ i.mnemonic = m) ↔
      (∃ row ∈ opcodeMap, row.mnemonic = m ∧ row.selects c.hdr = true ∧ row.format.admits c = true)

/-- 30_encoding.md R77: exactly the reserved encodings do not decode, and each is refused: nothing but the response, the
mark and the history moves. -/
def Obligations.ReservedEncodingsAreRefused : Prop :=
  ∀ (s : State) (c : Command),
    (Reserved c ↔ ¬∃ i, decode c = .ok i) ∧
    (Reserved c → s.seq.phase = .unconfigured ∨ s.seq.phase = .idle →
      ∃ t, takeCommand c s = .next t ∧
        t = { s with
              seq := { s.seq with resp := some ⟨.illegalCommand, false, 0, 0, none⟩ }
              hist := s.hist ++ [.cmd c, .resp ⟨.illegalCommand, false, 0, 0, none⟩]
              marks := t.marks } ∧
        (∀ m, m ∈ t.marks ↔ m = .illegalCommand ∨ m ∈ s.marks) ∧ Status.illegalCommand.code = 0x10#8)

/-! ### A step -/

/-- A step runs the command the host presents: the record leaves the port and the step is `exec` of what it decodes
to, whatever the phase; a blocking call does so when the controller is not BUSY; and the host's check places a table
word on the port just so. -/
def Obligations.StepRunsTheDecodedCommand : Prop :=
  ∀ (s : State) (c : Command) (i : Instr) (rest : List HostAction), decode c = .ok i →
    (s.host = .present c :: rest → step s = exec i { s with host := rest }) ∧
    (s.host = .call c :: rest → s.seq.phase ≠ .busy → step s = exec i { s with host := rest }) ∧
    (∀ nbits w, decodeTableWord nbits w = some i → step (s.withFetchWord nbits w) = exec i s)

/-- 10_state.md R31, for a write: a BUSY step performs `SEQ.OPS[SEQ.K]` and adds 1 to `SEQ.K`, and when that reaches
the end of the list the command completes with status 0 and the phase becomes IDLE. The host's
list in the premise is log entry 3; what a write that makes no edge does to the stages with MR not high is log entries 8
(it moves the line) and 22 (it does not). -/
def Obligations.BusyStepPerformsTheNextWrite : Prop :=
  ∀ (s : State) (r : Role) (v : Bit), s.seq.phase = .busy → hostBlocks s.host = true →
    s.platform.pinWritesFallible = false → s.seq.ops[s.seq.k]? = some (.write r v) →
    ∃ t, step s = .next t ∧ t.line = s.line.set r (levelOf v) ∧ t.chain = (drive r v s).chain ∧ s.SameSetting t ∧
      t.draws = s.draws ∧
      (s.seq.k + 1 < s.seq.ops.length →
        t.seq = { s.seq with k := s.seq.k + 1 } ∧ t.hist = s.hist ++ [.write r v]) ∧
      (s.seq.k + 1 = s.seq.ops.length →
        t.EndedWith ⟨.ok, false, 0, 0, none⟩ ∧ t.hist = s.hist ++ [.write r v, .resp ⟨.ok, false, 0, 0, none⟩])

/-- 60_exceptions.md R188, 70_reset_and_hazards.md R205 and R206: a run is over exactly when the controller is neither
BUSY nor FAULTED and the host has nothing left but to do nothing or to release; then a step consumes that action and
moves nothing else but, by a release, the phase to DESTROYED, and the run is still over. With no action left a step
answers the same state. That there is such a step is the model's choice, and the host's list of actions too (log
entries 4 and 3). -/
def Obligations.RestingControllerHolds : Prop :=
  ∀ s : State,
    (s.RunOver ↔ (∀ a ∈ s.host, a = .release ∨ a = .pass) ∧ s.seq.phase ≠ .busy ∧ s.seq.phase ≠ .faulted) ∧
    (s.RunOver → ∃ t, step s = .next t ∧ t.RunOver ∧
      t.seq.phase = (if s.host.head? = some .release then .destroyed else s.seq.phase) ∧
      t = { s with seq := { s.seq with phase := t.seq.phase }, host := s.host.tail }) ∧
    (s.RunOver → s.host = [] → step s = .next s)

/-- 60_exceptions.md R160, R165: outside FAULTED every command is answered by a next state, in every phase, and no
command is without a meaning. In FAULTED, where the spec takes no step, the model stops under one name: its own choice
(log entry 5). -/
def Obligations.EveryCommandHasAnOutcome : Prop :=
  ∀ (s : State) (i : Instr) (c : Command),
    (s.seq.phase ≠ .faulted → (∃ t, exec i s = .next t) ∧ ∃ t, takeCommand c s = .next t) ∧
    (s.seq.phase = .faulted → exec i s = .fault .controllerFaulted ∧ takeCommand c s = .fault .controllerFaulted ∧
      step s = .fault .controllerFaulted)

/-! ### CONSTRUCT -/

/-- 40_construct.md R100, 10_state.md R46: a CONSTRUCT with an admitted count in UNCONFIGURED answers the state of
R46's second column; every line keeps its level, and no Write or Read event is recorded. -/
def Obligations.ConstructConfigures : Prop :=
  ∀ (s : State) (o m : Bit) (n : Nat), s.seq.phase = .unconfigured → 1 ≤ n →
    (∀ most, s.platform.maxChips = some most → n ≤ most) →
    ∃ t, exec (.construct o m n) s = .next t ∧ t.cfg = some ⟨n, o, m⟩ ∧
      t.EndedWith ⟨.ok, false, 0, 0, none⟩ ∧ t.line = s.line ∧
      (∀ i, i < n * 8 → t.chain.sr[i]? = some .unknown ∧ t.chain.out[i]? = some .unknown) ∧
      t.chain.sr.length = n * 8 ∧ t.chain.out.length = n * 8 ∧
      t.hist = s.hist ++ [.cmd ⟨Instr.header (.construct o m n), n, []⟩, .resp ⟨.ok, false, 0, 0, none⟩] ∧
      (t.lineLevel .oe = if o then some s.line.oe else none) ∧ (t.lineLevel .mr = if m then some s.line.mr else none) ∧
      t.marks = s.marks ∧ t.platform = s.platform ∧ t.draws = s.draws ∧ t.host = s.host

/-- 40_construct.md R101: a CONSTRUCT in IDLE is refused as `Reconfigure`, in DESTROYED as `Destroyed`, and in BUSY it
is the fault `ConcurrentCommand`. -/
def Obligations.SecondConstructIsRefused : Prop :=
  ∀ (s : State) (o m : Bit) (n : Nat),
    (s.seq.phase = .idle → ∃ t, exec (.construct o m n) s = .next t ∧ t.cfg = s.cfg ∧ t.line = s.line ∧
      t.chain = s.chain ∧ t.seq = { s.seq with resp := some ⟨.reconfigure, false, 0, 0, none⟩ } ∧
      (∀ x, x ∈ t.marks ↔ x = .reconfigure ∨ x ∈ s.marks) ∧
      t.hist = s.hist ++ [.cmd (encode (.construct o m n)), .resp ⟨.reconfigure, false, 0, 0, none⟩]) ∧
    (s.seq.phase = .destroyed → ∃ t, exec (.construct o m n) s = .next t ∧
      t.seq = { s.seq with resp := some ⟨.destroyed, false, 0, 0, none⟩ } ∧ Cause.destroyed ∈ t.marks) ∧
    (s.seq.phase = .busy → ∃ t, exec (.construct o m n) s = .next t ∧ t.seq.phase = .faulted ∧
      Cause.concurrentCommand ∈ t.marks)

/-- 40_construct.md R102: a CONSTRUCT in UNCONFIGURED with a zero count, or one above `MAX_CHIPS` where it is set, is
refused as `BadChipCount` and nothing is configured. -/
def Obligations.BadChipCountIsRefused : Prop :=
  ∀ (s : State) (o m : Bit) (n : Nat), s.seq.phase = .unconfigured →
    (n = 0 ∨ ∃ most, s.platform.maxChips = some most ∧ most < n) →
    ∃ t, exec (.construct o m n) s = .next t ∧ t.cfg = s.cfg ∧ t.line = s.line ∧ t.chain = s.chain ∧
      t.seq = { s.seq with resp := some ⟨.badChipCount, false, 0, 0, none⟩ } ∧
      (∀ x, x ∈ t.marks ↔ x = .badChipCount ∨ x ∈ s.marks) ∧
      t.hist = s.hist ++ [.cmd (encode (.construct o m n)), .resp ⟨.badChipCount, false, 0, 0, none⟩]

/-! ### Output control -/

/-- 41_output_control.md R110: ENABLE_OUTPUT reads OE and writes 0 when it read 1; it ends with OE low and nothing else
of the lines, the latches or the configuration moved, in 2 or 3 steps. The stages move only by R176, when a write finds
MR not high (log entry 8). -/
def Obligations.EnableOutputRuns : Prop :=
  ∀ (s : State) (c : Cfg), s.Ready c → c.hasOE = true →
    ∃ u t, exec .enableOutput s = .next u ∧ u.line = s.line ∧ u.chain = s.chain ∧ u.seq.phase = .busy ∧
      u.seq.ops = [.read .oe] ∧ u.seq.k = 0 ∧ u.hist = s.hist ++ [.cmd (encode .enableOutput)] ∧
      runs (if s.oeReads then 2 else 1) u = .next t ∧ t.EndedWith ⟨.ok, false, 0, 0, none⟩ ∧
      t.line = { s.line with oe := .zero } ∧
      t.hist = s.hist ++ [.cmd (encode .enableOutput), .read .oe s.oeReads] ++
        (if s.oeReads then [.write .oe false] else []) ++ [.resp ⟨.ok, false, 0, 0, none⟩] ∧
      t.chain = (if s.oeReads then s.chain.mrClear s.mrEff else s.chain) ∧ s.SameSetting t ∧
      (s.platform.pinWritesFallible = false → s.line.oe ≠ .unknown → t.draws = s.draws) ∧
      t.visible = s.chain.out.map outOf

/-- 41_output_control.md R111: DISABLE_OUTPUT reads OE and writes 1 when it read 0; it ends with OE high and every
output not driven. -/
def Obligations.DisableOutputRuns : Prop :=
  ∀ (s : State) (c : Cfg), s.Ready c → c.hasOE = true →
    ∃ u t, exec .disableOutput s = .next u ∧ u.line = s.line ∧ u.chain = s.chain ∧ u.seq.phase = .busy ∧
      u.seq.ops = [.read .oe] ∧ u.seq.k = 0 ∧ u.hist = s.hist ++ [.cmd (encode .disableOutput)] ∧
      runs (if s.oeReads then 1 else 2) u = .next t ∧ t.EndedWith ⟨.ok, false, 0, 0, none⟩ ∧
      t.line = { s.line with oe := .one } ∧
      t.hist = s.hist ++ [.cmd (encode .disableOutput), .read .oe s.oeReads] ++
        (if s.oeReads then [] else [.write .oe true]) ++ [.resp ⟨.ok, false, 0, 0, none⟩] ∧
      t.chain = (if s.oeReads then s.chain else s.chain.mrClear s.mrEff) ∧ s.SameSetting t ∧
      (s.platform.pinWritesFallible = false → s.line.oe ≠ .unknown → t.draws = s.draws) ∧
      t.visible = s.chain.out.map fun _ => .z

/-- 41_output_control.md R112: IS_OUTPUT_ENABLED reads OE once and answers 1 exactly when it reads low; the chain is
untouched, and OE moves only if its level was unknown. -/
def Obligations.IsOutputEnabledRuns : Prop :=
  ∀ (s : State) (c : Cfg), s.Ready c → c.hasOE = true →
    ∃ u t, exec .isOutputEnabled s = .next u ∧ u.line = s.line ∧ u.chain = s.chain ∧ u.seq.phase = .busy ∧
      u.seq.ops = [.read .oe] ∧ u.seq.k = 0 ∧ u.hist = s.hist ++ [.cmd (encode .isOutputEnabled)] ∧
      runs 1 u = .next t ∧ t.EndedWith ⟨.ok, !s.oeReads, 0, 0, none⟩ ∧
      t.line = { s.line with oe := levelOf s.oeReads } ∧ (s.line.oe ≠ .unknown → t.line = s.line) ∧
      t.hist = s.hist ++ [.cmd (encode .isOutputEnabled), .read .oe s.oeReads, .resp ⟨.ok, !s.oeReads, 0, 0, none⟩] ∧
      t.chain = s.chain ∧ s.SameSetting t ∧ (s.line.oe ≠ .unknown → t.draws = s.draws)

/-- 60_exceptions.md R162: an OE command on a controller without an OE line ends at once with `UnmanagedPin(OE)`, and
touches no line. -/
def Obligations.UnmanagedOutputEnableIsAnError : Prop :=
  ∀ (s : State) (i : Instr), s.seq.phase = .idle → s.hasOE = false →
    i = .enableOutput ∨ i = .disableOutput ∨ i = .isOutputEnabled →
    ∃ t, exec i s = .next t ∧ t.EndedWith ⟨.unmanagedPin, false, 0, 0, some .oe⟩ ∧
      Status.unmanagedPin.code = 0x02#8 ∧ t.line = s.line ∧ t.chain = s.chain ∧ s.SameSetting t ∧
      t.hist = s.hist ++ [.cmd (encode i), .resp ⟨.unmanagedPin, false, 0, 0, some .oe⟩]

/-- 41_output_control.md R114: with an OE line, a query after ENABLE_OUTPUT answers 1 and after DISABLE_OUTPUT 0,
whatever OE was before. -/
def Obligations.OutputControlRoundTrips : Prop :=
  ∀ (s : State) (c : Cfg) (i : Instr), s.Ready c → c.hasOE = true → i = .enableOutput ∨ i = .disableOutput →
    ∃ u k t v m w, exec i s = .next u ∧ runs k u = .next t ∧ t.EndedWith ⟨.ok, false, 0, 0, none⟩ ∧
      exec .isOutputEnabled t = .next v ∧ runs m v = .next w ∧ w.EndedWith ⟨.ok, i == .enableOutput, 0, 0, none⟩ ∧
      w.line = { s.line with oe := if i = .enableOutput then .zero else .one } ∧ s.SameSetting t ∧ s.SameSetting w

/-- 41_output_control.md R113: two ENABLE_OUTPUT (or two DISABLE_OUTPUT) in a row make two reads and one write when the
first read returned the opposite level, none when it did not; the second makes no write. -/
def Obligations.OutputControlIsIdempotent : Prop :=
  ∀ (s : State) (c : Cfg) (rest : List HostAction), s.Ready c → c.hasOE = true → hostBlocks rest = true →
    (s.host = .call (encode .enableOutput) :: .call (encode .enableOutput) :: rest →
      ∃ k t, runs k s = .next t ∧ t.host = rest ∧ t.EndedWith ⟨.ok, false, 0, 0, none⟩ ∧
        t.hist = s.hist ++ [.cmd (encode .enableOutput), .read .oe s.oeReads] ++
          (if s.oeReads then [.write .oe false] else []) ++ [.resp ⟨.ok, false, 0, 0, none⟩] ++
          [.cmd (encode .enableOutput), .read .oe false, .resp ⟨.ok, false, 0, 0, none⟩]) ∧
    (s.host = .call (encode .disableOutput) :: .call (encode .disableOutput) :: rest →
      ∃ k t, runs k s = .next t ∧ t.host = rest ∧ t.EndedWith ⟨.ok, false, 0, 0, none⟩ ∧
        t.hist = s.hist ++ [.cmd (encode .disableOutput), .read .oe s.oeReads] ++
          (if s.oeReads then [] else [.write .oe true]) ++ [.resp ⟨.ok, false, 0, 0, none⟩] ++
          [.cmd (encode .disableOutput), .read .oe true, .resp ⟨.ok, false, 0, 0, none⟩])

/-! ### SHIFT -/

/-- 42_shift.md R131, 60_exceptions.md R161 and R163: SHIFT is validated before any line is touched: the wrong length
is `InvalidLength` with the two lengths, then a reset without an MR line is `UnmanagedPin(MR)`; otherwise the step
enters BUSY with the micro-ops of R132. In all three cases no line and nothing of the chain moves. -/
def Obligations.ShiftIsValidatedFirst : Prop :=
  ∀ (s : State) (c : Cfg) (reset : Bit) (bits : List Bit), s.seq.phase = .idle → s.cfg = some c →
    ∃ t, exec (.shift reset bits) s = .next t ∧ t.line = s.line ∧ t.chain = s.chain ∧ s.SameSetting t ∧
      t.draws = s.draws ∧
      (bits.length ≠ c.chips * 8 → t.EndedWith ⟨.invalidLength, false, c.chips * 8, bits.length, none⟩ ∧
        Status.invalidLength.code = 0x01#8 ∧ t.hist = s.hist ++
          [.cmd (encode (.shift reset bits)), .resp ⟨.invalidLength, false, c.chips * 8, bits.length, none⟩]) ∧
      (bits.length = c.chips * 8 → reset = true → c.hasMR = false →
        t.EndedWith ⟨.unmanagedPin, false, 0, 0, some .mr⟩ ∧ Status.unmanagedPin.code = 0x02#8 ∧
          t.hist = s.hist ++ [.cmd (encode (.shift reset bits)), .resp ⟨.unmanagedPin, false, 0, 0, some .mr⟩]) ∧
      (bits.length = c.chips * 8 → (reset = true → c.hasMR = true) →
        t.seq.phase = .busy ∧ t.seq.ops = shiftOps bits reset ∧ t.seq.k = 0 ∧
          t.seq.cmd = some (.shift reset bits) ∧ t.seq.resp = s.seq.resp ∧
          t.hist = s.hist ++ [.cmd (encode (.shift reset bits))])

/-- 42_shift.md R132: `ShiftOps` position by position, and its length. -/
def Obligations.ShiftOpsAreInOrder : Prop :=
  ∀ (reset : Bit) (bits : List Bit),
    let p := if reset then 2 else 0
    let L := bits.length
    let ops := shiftOps bits reset
    (reset = true → ops[0]? = some (.write .mr false) ∧ ops[1]? = some (.write .mr true)) ∧
    ops[p]? = some (.write .clock false) ∧ ops[p + 1]? = some (.write .data false) ∧
    ops[p + 2]? = some (.write .latch false) ∧
    (∀ r, MicroOp.read r ∉ ops) ∧ (∀ v, MicroOp.write .oe v ∉ ops) ∧
    (∀ j b, bits[L - 1 - j]? = some b → j < L →
      ops[p + 3 + 4 * j]? = some (.write .clock false) ∧ ops[p + 4 + 4 * j]? = some (.write .data b) ∧
      ops[p + 5 + 4 * j]? = some (.write .clock true) ∧ ops[p + 6 + 4 * j]? = some (.write .data false)) ∧
    ops[p + 3 + 4 * L]? = some (.write .clock false) ∧ ops[p + 4 + 4 * L]? = some (.write .latch true) ∧
    ops.length = p + 5 + 4 * L

/-- 42_shift.md R139: the writes of a valid SHIFT, counted by role, and no read. -/
def Obligations.ShiftWriteCounts : Prop :=
  ∀ (reset : Bit) (bits : List Bit),
    let L := bits.length
    let ops := shiftOps bits reset
    writeCount .clock false ops + writeCount .clock true ops = 2 * L + 2 ∧ writeCount .clock true ops = L ∧
    writeCount .data false ops + writeCount .data true ops = 2 * L + 1 ∧
    writeCount .latch false ops = 1 ∧ writeCount .latch true ops = 1 ∧
    writeCount .mr false ops = (if reset then 1 else 0) ∧ writeCount .mr true ops = (if reset then 1 else 0) ∧
    writeCount .oe false ops = 0 ∧ writeCount .oe true ops = 0 ∧ (∀ r, MicroOp.read r ∉ ops) ∧
    ops.length = (if reset then 4 * L + 7 else 4 * L + 5)

/-- 42_shift.md R140: the shift contract. A validated SHIFT with MR high at every edge runs to its end in as many steps
as it has writes, and leaves `bits` in the stages and the latches, whatever the chain and the lines held. -/
def Obligations.ShiftDeliversThePattern : Prop :=
  ∀ (s : State) (c : Cfg) (reset : Bit) (bits : List Bit), s.Ready c → s.chain.sr.length = c.chips * 8 →
    bits.length = c.chips * 8 → (reset = true → c.hasMR = true) → s.MrHigh c reset →
    ∃ u t, exec (.shift reset bits) s = .next u ∧ runs (4 * (c.chips * 8) + (if reset then 7 else 5)) u = .next t ∧
      t.EndedWith ⟨.ok, false, 0, 0, none⟩ ∧
      t.chain.sr = bits.map levelOf ∧ t.chain.out = bits.map levelOf ∧
      t.line = ⟨.one, .zero, .zero, s.line.oe, if reset then .one else s.line.mr⟩ ∧
      (s.oeEff = .zero → t.visible = bits.map fun b => if b then .one else .zero) ∧
      (s.oeEff = .one → t.visible = bits.map fun _ => .z) ∧
      t.hist = s.hist ++ [.cmd (encode (.shift reset bits))] ++ writeEvents (shiftOps bits reset) ++
        [.resp ⟨.ok, false, 0, 0, none⟩] ∧ s.SameSetting t ∧
      (s.platform.pinWritesFallible = false → t.draws = s.draws)

/-- 42_shift.md R146: the same SHIFT with MR low throughout latches zeros, and with MR unknown latches 0 where the bit
is 0 and ⊥ where it is 1; both report success. -/
def Obligations.ShiftWithoutMasterResetHigh : Prop :=
  ∀ (s : State) (c : Cfg) (bits : List Bit), s.Ready c → s.chain.sr.length = c.chips * 8 →
    bits.length = c.chips * 8 → s.mrEff ≠ .one →
    ∃ u t, exec (.shift false bits) s = .next u ∧ runs (4 * (c.chips * 8) + 5) u = .next t ∧
      t.EndedWith ⟨.ok, false, 0, 0, none⟩ ∧
      (s.mrEff = .zero → t.chain.out = bits.map fun _ => .zero) ∧
      (s.mrEff = .unknown → t.chain.out = bits.map fun b => if b then .unknown else .zero) ∧
      t.chain.sr = t.chain.out

/-- 42_shift.md R141: with the premises of the contract met by both, the reset flag changes nothing of the chain at the
end: only MR is left high and its two writes are in the history. -/
def Obligations.ResetFlagChangesNoOutput : Prop :=
  ∀ (s : State) (c : Cfg) (bits : List Bit), s.Ready c → s.chain.sr.length = c.chips * 8 →
    bits.length = c.chips * 8 → c.hasMR = true → s.line.mr = .one →
    ∃ u₀ t₀ u₁ t₁, exec (.shift false bits) s = .next u₀ ∧ runs (4 * (c.chips * 8) + 5) u₀ = .next t₀ ∧
      exec (.shift true bits) s = .next u₁ ∧ runs (4 * (c.chips * 8) + 7) u₁ = .next t₁ ∧
      t₁.chain = t₀.chain ∧ t₁.line = { t₀.line with mr := .one } ∧ t₁.mrEff = .one ∧
      t₀.hist = s.hist ++ [.cmd (encode (.shift false bits))] ++ writeEvents (shiftOps bits false) ++
        [.resp ⟨.ok, false, 0, 0, none⟩] ∧
      t₁.hist = s.hist ++ [.cmd (encode (.shift true bits)), .write .mr false, .write .mr true] ++
        writeEvents (shiftOps bits false) ++ [.resp ⟨.ok, false, 0, 0, none⟩]

/-- 20_memory.md R58, 42_shift.md R143 and R145: at every point inside a SHIFT the controller is BUSY at that micro-op,
the latches still hold what they held before, OE is untouched, and from LATCH low on the chain-side phase is SHIFTING. -/
def Obligations.OutputsHoldDuringAShift : Prop :=
  ∀ (s : State) (c : Cfg) (reset : Bit) (bits : List Bit) (k : Nat), s.Ready c →
    bits.length = c.chips * 8 → (reset = true → c.hasMR = true) →
    k < 4 * (c.chips * 8) + (if reset then 7 else 5) →
    ∃ u t, exec (.shift reset bits) s = .next u ∧ runs k u = .next t ∧ t.seq.phase = .busy ∧ t.seq.k = k ∧
      t.chain.out = s.chain.out ∧ t.line.oe = s.line.oe ∧ t.visible = s.visible ∧
      ((if reset then 5 else 3) ≤ k → t.chainPhase = .shifting)

/-- 42_shift.md R144: read from the history, the DATA level at the successive CLOCK rising edges of a SHIFT is
`bits[L-1], ..., bits[0]`, whatever DATA was before. -/
def Obligations.ClockDataPairsAreTheReversedBits : Prop :=
  ∀ (data : Level) (reset : Bit) (bits : List Bit),
    clockEdgeData data (writeEvents (shiftOps bits reset)) = bits.reverse.map levelOf

/-- 42_shift.md R145: of two SHIFTs in a row the second replaces the first's pattern whole: at the end of the first,
with the second still to come, the latches hold the first's bits, and at the end of the second its own. The host's list
of blocking calls is log entry 3. -/
def Obligations.SecondShiftReplacesTheFirst : Prop :=
  ∀ (s : State) (c : Cfg) (r₁ r₂ : Bit) (b₁ b₂ : List Bit) (rest : List HostAction), s.Ready c →
    s.chain.sr.length = c.chips * 8 → b₁.length = c.chips * 8 → b₂.length = c.chips * 8 →
    (r₁ = true ∨ r₂ = true → c.hasMR = true) → s.MrHigh c r₁ → hostBlocks rest = true →
    s.host = .call (encode (.shift r₁ b₁)) :: .call (encode (.shift r₂ b₂)) :: rest →
    ∃ k₁ t₁ k₂ t₂, runs k₁ s = .next t₁ ∧ t₁.chain.out = b₁.map levelOf ∧ t₁.EndedWith ⟨.ok, false, 0, 0, none⟩ ∧
      t₁.host = .call (encode (.shift r₂ b₂)) :: rest ∧
      t₁.hist = s.hist ++ [.cmd (encode (.shift r₁ b₁))] ++ writeEvents (shiftOps b₁ r₁) ++
        [.resp ⟨.ok, false, 0, 0, none⟩] ∧
      runs k₂ t₁ = .next t₂ ∧ t₂.chain.out = b₂.map levelOf ∧ t₂.EndedWith ⟨.ok, false, 0, 0, none⟩ ∧ t₂.host = rest ∧
      t₂.hist = t₁.hist ++ [.cmd (encode (.shift r₂ b₂))] ++ writeEvents (shiftOps b₂ r₂) ++
        [.resp ⟨.ok, false, 0, 0, none⟩]

/-! ### Errors, refusals, the fault -/

/-- 60_exceptions.md R164: every refusal of the table touches no line and changes no `CFG`, `LINE`, `CHAIN` or phase:
it writes the response with its code and adds its cause to the marks. -/
def Obligations.RefusalsChangeNothingElse : Prop :=
  ∀ (s : State) (c : Command) (cause : Cause), RefusedAs s c cause →
    ∃ t, takeCommand c s = .next t ∧
      t = { s with
            seq := { s.seq with resp := some ⟨cause.status, false, 0, 0, none⟩ }
            hist := s.hist ++ [.cmd c, .resp ⟨cause.status, false, 0, 0, none⟩]
            marks := t.marks } ∧
      ∀ m, m ∈ t.marks ↔ m = cause ∨ m ∈ s.marks

/-- 60_exceptions.md R165: a command while BUSY is the fault: FAULTED, the rest of the command dropped, every line but
OE and the whole chain unknown, the cause marked, response 0x20; FAULTED is never left, takes no command, and is never
the end of a run. -/
def Obligations.ConcurrentCommandIsTheFault : Prop :=
  (∀ (s : State) (c : Command), s.seq.phase = .busy →
    ∃ t, takeCommand c s = .next t ∧ t.seq.phase = .faulted ∧ t.seq.ops = [] ∧ t.seq.k = 0 ∧
      (∀ m, m ∈ t.marks ↔ m = .concurrentCommand ∨ m ∈ s.marks) ∧
      (∀ r, r ≠ .oe → t.line.get r = .unknown) ∧ t.line.oe = s.line.oe ∧
      t.chain.sr = List.replicate s.chain.sr.length .unknown ∧
      t.chain.out = List.replicate s.chain.out.length .unknown ∧
      t.seq.resp = some ⟨.concurrentCommand, false, 0, 0, none⟩ ∧ Status.concurrentCommand.code = 0x20#8 ∧
      t.hist = s.hist ++ [.cmd c, .resp ⟨.concurrentCommand, false, 0, 0, none⟩] ∧ t.cfg = s.cfg) ∧
  (∀ s : State, s.seq.phase = .faulted →
    (∀ t, step s ≠ .next t) ∧ (∀ c t, takeCommand c s ≠ .next t) ∧ ¬s.RunOver)

/-- 60_exceptions.md R167, checks 2 to 7: the response to a record is that of the first check that fails, in that
order, and where none fails the command is in progress or has succeeded. -/
def Obligations.ChecksReportTheFirstFailure : Prop :=
  ∀ (s : State) (c : Command), s.seq.phase ≠ .faulted →
    ∃ t, takeCommand c s = .next t ∧
      match firstFailing s c with
      | some st => (t.seq.resp.map (·.status)) = some st ∧ t.line.oe = s.line.oe
      | none => t.seq.phase = .busy ∧ t.seq.resp = s.seq.resp ∨
          t.seq.phase = .idle ∧ t.seq.resp = some ⟨.ok, false, 0, 0, none⟩

/-- 60_exceptions.md R171, 20_memory.md R51: with fallible writes, a write that the draw fails ends the command with
`PinIoError` and its role, the line and the chain unknown and the phase IDLE; one that it does not fail is performed;
with infallible writes no step reports `PinIoError`, and no read does in either setting. That a failed write records no
Write event is the model's reading of R51 against R39 (log entry 20), the draw is log entry 2, and the host's list in
the premise log entry 3; what a performed write that makes no edge does to the stages with MR not high is log entries 8
(it moves the line) and 22 (it does not). -/
def Obligations.FailedWriteIsPinIoError : Prop :=
  (∀ (s : State) (r : Role) (v : Bit), s.seq.phase = .busy → hostBlocks s.host = true →
    s.platform.pinWritesFallible = true → s.seq.ops[s.seq.k]? = some (.write r v) →
    ∃ t, step s = .next t ∧
      if Config.writeFails s.draws then
        t.EndedWith ⟨.pinIoError, false, 0, 0, some r⟩ ∧ Status.pinIoError.code = 0x03#8 ∧
          t.line = s.line.set r .unknown ∧ t.chain.sr = List.replicate s.chain.sr.length .unknown ∧
          t.chain.out = List.replicate s.chain.out.length .unknown ∧
          t.hist = s.hist ++ [.resp ⟨.pinIoError, false, 0, 0, some r⟩] ∧ s.SameSetting t
      else t.line = s.line.set r (levelOf v) ∧ t.chain = (drive r v s).chain ∧ s.SameSetting t ∧
        (∃ more, t.hist = s.hist ++ .write r v :: more)) ∧
  (∀ s t : State, step s = .next t →
    s.platform.pinWritesFallible = false ∨ (∃ r, s.seq.ops[s.seq.k]? = some (.read r)) →
    (∃ x, t.seq.resp = some x ∧ x.status = .pinIoError) → t.seq.resp = s.seq.resp)

/-- 60_exceptions.md R160: a run that ends with no mark recorded and not FAULTED had none in any state before, and
every response of it is a success or an error, none a refusal or the fault. -/
def Obligations.UnmarkedRunHasNoRefusal : Prop :=
  ∀ s t : State, step s = .next t → t.Unmarked →
    s.Unmarked ∧ ∀ r, Event.resp r ∈ t.hist →
      Event.resp r ∈ s.hist ∨ r.status ∈ [Status.ok, .invalidLength, .unmanagedPin, .pinIoError]

/-- 60_exceptions.md R166: the status codes, no two alike. -/
def Obligations.StatusCodesAreTheTable : Prop :=
  [Status.ok, .invalidLength, .unmanagedPin, .pinIoError, .illegalCommand, .notConfigured, .reconfigure, .badChipCount,
      .destroyed, .concurrentCommand].map Status.code =
    [0x00#8, 0x01#8, 0x02#8, 0x03#8, 0x10#8, 0x11#8, 0x12#8, 0x13#8, 0x14#8, 0x20#8] ∧
  ∀ a b : Status, a.code = b.code → a = b

/-- 60_exceptions.md R186, 20_memory.md R62: every command ends: from a state that meets the invariant, a BUSY
controller whose host does not intrude is IDLE after at most as many steps as its list, with one more for the write an
OE read may add, has micro-ops left, whether or not writes fail. -/
def Obligations.EveryCommandEnds : Prop :=
  ∀ s : State, s.Inv → s.seq.phase = .busy → hostBlocks s.host = true →
    ∃ k t, 1 ≤ k ∧ k ≤ s.seq.ops.length - s.seq.k + 1 ∧ runs k s = .next t ∧ t.seq.phase = .idle ∧
      (∃ r, t.seq.resp = some r ∧ (r.status = .ok ∨ r.status = .pinIoError)) ∧ t.host = s.host

/-! ### End of life -/

/-- 70_reset_and_hazards.md R205: ending the controller's life when it is not BUSY sets DESTROYED and changes no line,
no chain bit and no output; while BUSY it cannot happen; afterwards every command is refused as `Destroyed`. -/
def Obligations.EndOfLifeLeavesTheLines : Prop :=
  ∀ (s : State) (rest : List HostAction), s.host = .release :: rest →
    (s.seq.phase = .idle ∨ s.seq.phase = .unconfigured ∨ s.seq.phase = .destroyed →
      ∃ t, step s = .next t ∧ t.seq.phase = .destroyed ∧ t.line = s.line ∧ t.chain = s.chain ∧
        t.visible = s.visible ∧ t.hist = s.hist ∧ t.marks = s.marks ∧ t.cfg = s.cfg ∧
        ∀ c, ∃ x, takeCommand c t = .next x ∧ x.seq.phase = .destroyed ∧ x.line = s.line ∧ x.chain = s.chain ∧
          x.seq.resp = some ⟨.destroyed, false, 0, 0, none⟩ ∧ Cause.destroyed ∈ x.marks) ∧
    (s.seq.phase = .busy → ∃ t, step s = .next t ∧ t.seq.phase ≠ .destroyed)
end

