-- ==== Sys2Proof/Laws/State.lean ====
section
/-! SUPPORT. One lemma per field per update of the state, true by rfl, and the small facts of the line record, so that
no later proof unfolds a record update. -/

namespace Sys2Proof.Machine

/-! ### `State.record` -/

@[simp] theorem State.record_cfg (e : Event) (s : State) : (s.record e).cfg = s.cfg := rfl
@[simp] theorem State.record_line (e : Event) (s : State) : (s.record e).line = s.line := rfl
@[simp] theorem State.record_seq (e : Event) (s : State) : (s.record e).seq = s.seq := rfl
@[simp] theorem State.record_chain (e : Event) (s : State) : (s.record e).chain = s.chain := rfl
@[simp] theorem State.record_hist (e : Event) (s : State) : (s.record e).hist = s.hist ++ [e] := rfl
@[simp] theorem State.record_marks (e : Event) (s : State) : (s.record e).marks = s.marks := rfl
@[simp] theorem State.record_platform (e : Event) (s : State) : (s.record e).platform = s.platform := rfl
@[simp] theorem State.record_draws (e : Event) (s : State) : (s.record e).draws = s.draws := rfl
@[simp] theorem State.record_host (e : Event) (s : State) : (s.record e).host = s.host := rfl

/-! ### `State.issue` -/

@[simp] theorem State.issue_cfg (c : Command) (s : State) : (s.issue c).cfg = s.cfg := rfl
@[simp] theorem State.issue_line (c : Command) (s : State) : (s.issue c).line = s.line := rfl
@[simp] theorem State.issue_seq (c : Command) (s : State) : (s.issue c).seq = s.seq := rfl
@[simp] theorem State.issue_chain (c : Command) (s : State) : (s.issue c).chain = s.chain := rfl
@[simp] theorem State.issue_hist (c : Command) (s : State) : (s.issue c).hist = s.hist ++ [.cmd c] := rfl
@[simp] theorem State.issue_marks (c : Command) (s : State) : (s.issue c).marks = s.marks := rfl
@[simp] theorem State.issue_platform (c : Command) (s : State) : (s.issue c).platform = s.platform := rfl
@[simp] theorem State.issue_draws (c : Command) (s : State) : (s.issue c).draws = s.draws := rfl
@[simp] theorem State.issue_host (c : Command) (s : State) : (s.issue c).host = s.host := rfl

/-! ### `State.respond` -/

@[simp] theorem State.respond_cfg (resp : Response) (s : State) : (s.respond resp).cfg = s.cfg := rfl
@[simp] theorem State.respond_line (resp : Response) (s : State) : (s.respond resp).line = s.line := rfl
@[simp] theorem State.respond_seq (resp : Response) (s : State) :
    (s.respond resp).seq = { s.seq with resp := some resp } := rfl
@[simp] theorem State.respond_chain (resp : Response) (s : State) : (s.respond resp).chain = s.chain := rfl
@[simp] theorem State.respond_hist (resp : Response) (s : State) :
    (s.respond resp).hist = s.hist ++ [.resp resp] := rfl
@[simp] theorem State.respond_marks (resp : Response) (s : State) : (s.respond resp).marks = s.marks := rfl
@[simp] theorem State.respond_platform (resp : Response) (s : State) : (s.respond resp).platform = s.platform := rfl
@[simp] theorem State.respond_draws (resp : Response) (s : State) : (s.respond resp).draws = s.draws := rfl
@[simp] theorem State.respond_host (resp : Response) (s : State) : (s.respond resp).host = s.host := rfl

/-! ### `State.mark` -/

@[simp] theorem State.mark_cfg (c : Cause) (s : State) : (s.mark c).cfg = s.cfg := rfl
@[simp] theorem State.mark_line (c : Cause) (s : State) : (s.mark c).line = s.line := rfl
@[simp] theorem State.mark_seq (c : Cause) (s : State) : (s.mark c).seq = s.seq := rfl
@[simp] theorem State.mark_chain (c : Cause) (s : State) : (s.mark c).chain = s.chain := rfl
@[simp] theorem State.mark_hist (c : Cause) (s : State) : (s.mark c).hist = s.hist := rfl
@[simp] theorem State.mark_marks (c : Cause) (s : State) : (s.mark c).marks = insertCause c s.marks := rfl
@[simp] theorem State.mark_platform (c : Cause) (s : State) : (s.mark c).platform = s.platform := rfl
@[simp] theorem State.mark_draws (c : Cause) (s : State) : (s.mark c).draws = s.draws := rfl
@[simp] theorem State.mark_host (c : Cause) (s : State) : (s.mark c).host = s.host := rfl

/-! ### `complete` -/

@[simp] theorem complete_cfg (resp : Response) (s : State) : (complete resp s).cfg = s.cfg := rfl
@[simp] theorem complete_line (resp : Response) (s : State) : (complete resp s).line = s.line := rfl
@[simp] theorem complete_seq (resp : Response) (s : State) :
    (complete resp s).seq = { phase := .idle, ops := [], k := 0, cmd := none, resp := some resp } := rfl
@[simp] theorem complete_chain (resp : Response) (s : State) : (complete resp s).chain = s.chain := rfl
@[simp] theorem complete_hist (resp : Response) (s : State) : (complete resp s).hist = s.hist ++ [.resp resp] := rfl
@[simp] theorem complete_marks (resp : Response) (s : State) : (complete resp s).marks = s.marks := rfl
@[simp] theorem complete_platform (resp : Response) (s : State) : (complete resp s).platform = s.platform := rfl
@[simp] theorem complete_draws (resp : Response) (s : State) : (complete resp s).draws = s.draws := rfl
@[simp] theorem complete_host (resp : Response) (s : State) : (complete resp s).host = s.host := rfl

/-! ### `refuse` -/

@[simp] theorem refuse_cfg (c : Cause) (s : State) : (refuse c s).cfg = s.cfg := rfl
@[simp] theorem refuse_line (c : Cause) (s : State) : (refuse c s).line = s.line := rfl
@[simp] theorem refuse_seq (c : Cause) (s : State) :
    (refuse c s).seq = { s.seq with resp := some (.ofCause c) } := rfl
@[simp] theorem refuse_chain (c : Cause) (s : State) : (refuse c s).chain = s.chain := rfl
@[simp] theorem refuse_hist (c : Cause) (s : State) : (refuse c s).hist = s.hist ++ [.resp (.ofCause c)] := rfl
@[simp] theorem refuse_marks (c : Cause) (s : State) : (refuse c s).marks = insertCause c s.marks := rfl
@[simp] theorem refuse_platform (c : Cause) (s : State) : (refuse c s).platform = s.platform := rfl
@[simp] theorem refuse_draws (c : Cause) (s : State) : (refuse c s).draws = s.draws := rfl
@[simp] theorem refuse_host (c : Cause) (s : State) : (refuse c s).host = s.host := rfl

/-! ### `enterBusy` -/

@[simp] theorem enterBusy_cfg (i : Instr) (ops : List MicroOp) (s : State) : (enterBusy i ops s).cfg = s.cfg := rfl
@[simp] theorem enterBusy_line (i : Instr) (ops : List MicroOp) (s : State) : (enterBusy i ops s).line = s.line := rfl
@[simp] theorem enterBusy_seq (i : Instr) (ops : List MicroOp) (s : State) :
    (enterBusy i ops s).seq = { phase := .busy, ops := ops, k := 0, cmd := some i, resp := s.seq.resp } := rfl
@[simp] theorem enterBusy_chain (i : Instr) (ops : List MicroOp) (s : State) :
    (enterBusy i ops s).chain = s.chain := rfl
@[simp] theorem enterBusy_hist (i : Instr) (ops : List MicroOp) (s : State) : (enterBusy i ops s).hist = s.hist := rfl
@[simp] theorem enterBusy_marks (i : Instr) (ops : List MicroOp) (s : State) :
    (enterBusy i ops s).marks = s.marks := rfl
@[simp] theorem enterBusy_platform (i : Instr) (ops : List MicroOp) (s : State) :
    (enterBusy i ops s).platform = s.platform := rfl
@[simp] theorem enterBusy_draws (i : Instr) (ops : List MicroOp) (s : State) :
    (enterBusy i ops s).draws = s.draws := rfl
@[simp] theorem enterBusy_host (i : Instr) (ops : List MicroOp) (s : State) : (enterBusy i ops s).host = s.host := rfl

/-! ### `configure` -/

@[simp] theorem configure_cfg (hasOE hasMR : Bit) (n : Nat) (s : State) :
    (configure hasOE hasMR n s).cfg = some { chips := n, hasOE := hasOE, hasMR := hasMR } := rfl
@[simp] theorem configure_line (hasOE hasMR : Bit) (n : Nat) (s : State) :
    (configure hasOE hasMR n s).line = s.line := rfl
@[simp] theorem configure_seq (hasOE hasMR : Bit) (n : Nat) (s : State) :
    (configure hasOE hasMR n s).seq = s.seq := rfl
@[simp] theorem configure_chain (hasOE hasMR : Bit) (n : Nat) (s : State) :
    (configure hasOE hasMR n s).chain = { sr := unknowns (n * pinsPerChip), out := unknowns (n * pinsPerChip) } := rfl
@[simp] theorem configure_hist (hasOE hasMR : Bit) (n : Nat) (s : State) :
    (configure hasOE hasMR n s).hist = s.hist := rfl
@[simp] theorem configure_marks (hasOE hasMR : Bit) (n : Nat) (s : State) :
    (configure hasOE hasMR n s).marks = s.marks := rfl
@[simp] theorem configure_platform (hasOE hasMR : Bit) (n : Nat) (s : State) :
    (configure hasOE hasMR n s).platform = s.platform := rfl
@[simp] theorem configure_draws (hasOE hasMR : Bit) (n : Nat) (s : State) :
    (configure hasOE hasMR n s).draws = s.draws := rfl
@[simp] theorem configure_host (hasOE hasMR : Bit) (n : Nat) (s : State) :
    (configure hasOE hasMR n s).host = s.host := rfl

/-! ### `concurrentCommand` -/

@[simp] theorem concurrentCommand_cfg (s : State) : (concurrentCommand s).cfg = s.cfg := rfl
@[simp] theorem concurrentCommand_line (s : State) : (concurrentCommand s).line = s.line.afterFault := rfl
@[simp] theorem concurrentCommand_seq (s : State) :
    (concurrentCommand s).seq = { phase := .faulted, ops := [], k := 0, cmd := none, resp := some (.ofCause .concurrentCommand) } := rfl
@[simp] theorem concurrentCommand_chain (s : State) : (concurrentCommand s).chain = s.chain.lost := rfl
@[simp] theorem concurrentCommand_hist (s : State) :
    (concurrentCommand s).hist = s.hist ++ [.resp (.ofCause .concurrentCommand)] := rfl
@[simp] theorem concurrentCommand_marks (s : State) :
    (concurrentCommand s).marks = insertCause .concurrentCommand s.marks := rfl
@[simp] theorem concurrentCommand_platform (s : State) : (concurrentCommand s).platform = s.platform := rfl
@[simp] theorem concurrentCommand_draws (s : State) : (concurrentCommand s).draws = s.draws := rfl
@[simp] theorem concurrentCommand_host (s : State) : (concurrentCommand s).host = s.host := rfl

/-! ### `endOfLife` -/

@[simp] theorem endOfLife_cfg (s : State) : (endOfLife s).cfg = s.cfg := rfl
@[simp] theorem endOfLife_line (s : State) : (endOfLife s).line = s.line := rfl
@[simp] theorem endOfLife_seq (s : State) : (endOfLife s).seq = { s.seq with phase := .destroyed } := rfl
@[simp] theorem endOfLife_chain (s : State) : (endOfLife s).chain = s.chain := rfl
@[simp] theorem endOfLife_hist (s : State) : (endOfLife s).hist = s.hist := rfl
@[simp] theorem endOfLife_marks (s : State) : (endOfLife s).marks = s.marks := rfl
@[simp] theorem endOfLife_platform (s : State) : (endOfLife s).platform = s.platform := rfl
@[simp] theorem endOfLife_draws (s : State) : (endOfLife s).draws = s.draws := rfl
@[simp] theorem endOfLife_host (s : State) : (endOfLife s).host = s.host := rfl

/-! ### `drive` -/

@[simp] theorem drive_cfg (r : Role) (v : Bit) (s : State) : (drive r v s).cfg = s.cfg := rfl
@[simp] theorem drive_line (r : Role) (v : Bit) (s : State) : (drive r v s).line = s.line.set r (levelOf v) := rfl
@[simp] theorem drive_seq (r : Role) (v : Bit) (s : State) : (drive r v s).seq = s.seq := rfl
@[simp] theorem drive_hist (r : Role) (v : Bit) (s : State) : (drive r v s).hist = s.hist ++ [.write r v] := rfl
@[simp] theorem drive_marks (r : Role) (v : Bit) (s : State) : (drive r v s).marks = s.marks := rfl
@[simp] theorem drive_platform (r : Role) (v : Bit) (s : State) : (drive r v s).platform = s.platform := rfl
@[simp] theorem drive_draws (r : Role) (v : Bit) (s : State) : (drive r v s).draws = s.draws := rfl
@[simp] theorem drive_host (r : Role) (v : Bit) (s : State) : (drive r v s).host = s.host := rfl

/-! ### `loseWrite` -/

@[simp] theorem loseWrite_cfg (r : Role) (s : State) : (loseWrite r s).cfg = s.cfg := rfl
@[simp] theorem loseWrite_line (r : Role) (s : State) : (loseWrite r s).line = s.line.set r .unknown := rfl
@[simp] theorem loseWrite_seq (r : Role) (s : State) : (loseWrite r s).seq = s.seq := rfl
@[simp] theorem loseWrite_chain (r : Role) (s : State) : (loseWrite r s).chain = s.chain.lost := rfl
@[simp] theorem loseWrite_hist (r : Role) (s : State) : (loseWrite r s).hist = s.hist := rfl
@[simp] theorem loseWrite_marks (r : Role) (s : State) : (loseWrite r s).marks = s.marks := rfl
@[simp] theorem loseWrite_platform (r : Role) (s : State) : (loseWrite r s).platform = s.platform := rfl
@[simp] theorem loseWrite_draws (r : Role) (s : State) : (loseWrite r s).draws = s.draws := rfl
@[simp] theorem loseWrite_host (r : Role) (s : State) : (loseWrite r s).host = s.host := rfl

/-! ### `presentNext` -/

@[simp] theorem presentNext_cfg (c : Command) (s : State) : (presentNext c s).cfg = s.cfg := rfl
@[simp] theorem presentNext_line (c : Command) (s : State) : (presentNext c s).line = s.line := rfl
@[simp] theorem presentNext_seq (c : Command) (s : State) : (presentNext c s).seq = s.seq := rfl
@[simp] theorem presentNext_chain (c : Command) (s : State) : (presentNext c s).chain = s.chain := rfl
@[simp] theorem presentNext_hist (c : Command) (s : State) : (presentNext c s).hist = s.hist := rfl
@[simp] theorem presentNext_marks (c : Command) (s : State) : (presentNext c s).marks = s.marks := rfl
@[simp] theorem presentNext_platform (c : Command) (s : State) : (presentNext c s).platform = s.platform := rfl
@[simp] theorem presentNext_draws (c : Command) (s : State) : (presentNext c s).draws = s.draws := rfl
@[simp] theorem presentNext_host (c : Command) (s : State) : (presentNext c s).host = .present c :: s.host := rfl

/-- `raise` is `complete` with the error's response. -/
@[simp] theorem raise_eq_complete (error : Response) (s : State) : raise error s = complete error s := rfl

/-! ### Lines -/

/-- Reading the role just written. -/
@[simp] theorem Lines.get_set_same (l : Lines) (r : Role) (v : Level) : (l.set r v).get r = v := by cases r <;> rfl

/-- Writing one role leaves every other role alone. -/
theorem Lines.get_set_other (l : Lines) {r q : Role} (v : Level) (h : q ≠ r) : (l.set r v).get q = l.get q := by
  cases r <;> cases q <;> first | rfl | exact absurd rfl h

/-- Writing the level a role already holds changes nothing. -/
@[simp] theorem Lines.set_get_self (l : Lines) (r : Role) : l.set r (l.get r) = l := by cases r <;> rfl

/-- A later write of the same role is the one that counts. -/
@[simp] theorem Lines.set_set_same (l : Lines) (r : Role) (v w : Level) : (l.set r v).set r w = l.set r w := by
  cases r <;> rfl

/-- The fault keeps OE and makes every other line unknown. -/
theorem Lines.get_afterFault (l : Lines) (r : Role) :
    l.afterFault.get r = if r = .oe then l.oe else .unknown := by cases r <;> rfl

end Sys2Proof.Machine
end

