-- ==== Sys2Proof/Laws/Ops.lean ====
section
/-! SUPPORT. One spec lemma per shared operation: what it can do and what it leaves alone. Later proofs cite these
instead of unfolding the operations. -/

namespace Sys2Proof.Machine

/-! ### Levels -/

@[simp] theorem levelOf_true : levelOf true = .one := rfl
@[simp] theorem levelOf_false : levelOf false = .zero := rfl
@[simp] theorem levelOf_ne_unknown (b : Bit) : levelOf b ≠ .unknown := by cases b <;> decide
@[simp] theorem unknown_ne_levelOf (b : Bit) : Level.unknown ≠ levelOf b := by cases b <;> decide
@[simp] theorem merge_self (a : Level) : merge a a = a := by simp [merge]
theorem merge_comm (a b : Level) : merge a b = merge b a := by cases a <;> cases b <;> rfl

/-- `merge` with 0 is stable: an unknown MR clears once. -/
@[simp] theorem merge_zero_merge_zero (a : Level) : merge (merge a .zero) .zero = merge a .zero := by cases a <;> rfl

@[simp] theorem mergeAll_length (a b : List Level) : (mergeAll a b).length = min a.length b.length := by
  simp [mergeAll]

@[simp] theorem unknowns_length (n : Nat) : (unknowns n).length = n := by simp [unknowns]

/-! ### The chain -/

@[simp] theorem shifted_length (d : Level) (sr : List Level) : (shifted d sr).length = sr.length := by simp [shifted]

@[simp] theorem Chain.mrClear_out (mr : Level) (c : Chain) : (c.mrClear mr).out = c.out := by cases mr <;> rfl

@[simp] theorem Chain.mrClear_sr_length (mr : Level) (c : Chain) : (c.mrClear mr).sr.length = c.sr.length := by
  cases mr <;> simp [Chain.mrClear]

@[simp] theorem Chain.mrClear_one (c : Chain) : c.mrClear .one = c := rfl

/-- Clearing twice is clearing once. -/
@[simp] theorem Chain.mrClear_mrClear (mr : Level) (c : Chain) : (c.mrClear mr).mrClear mr = c.mrClear mr := by
  cases mr <;> simp [Chain.mrClear]

@[simp] theorem Chain.shiftEdge_out (e : Edge) (d : Level) (c : Chain) : (c.shiftEdge e d).out = c.out := by
  cases e <;> rfl

@[simp] theorem Chain.shiftEdge_sr_length (e : Edge) (d : Level) (c : Chain) :
    (c.shiftEdge e d).sr.length = c.sr.length := by
  cases e <;> simp [Chain.shiftEdge]

@[simp] theorem Chain.latchEdge_sr (e : Edge) (c : Chain) : (c.latchEdge e).sr = c.sr := by cases e <;> rfl

theorem Chain.latchEdge_out_length (e : Edge) (c : Chain) (h : c.sr.length = c.out.length) :
    (c.latchEdge e).out.length = c.out.length := by
  cases e <;> simp [Chain.latchEdge, h]

@[simp] theorem Chain.lost_sr_length (c : Chain) : c.lost.sr.length = c.sr.length := by simp [Chain.lost]
@[simp] theorem Chain.lost_out_length (c : Chain) : c.lost.out.length = c.out.length := by simp [Chain.lost]

theorem edgeReaction_sr_length (r : Role) (e : Edge) (s : State) (c : Chain) :
    (edgeReaction r e s c).sr.length = c.sr.length := by
  cases r <;> simp [edgeReaction]

theorem edgeReaction_out_length (r : Role) (e : Edge) (s : State) (c : Chain) (h : c.sr.length = c.out.length) :
    (edgeReaction r e s c).out.length = c.out.length := by
  cases r <;> simp [edgeReaction, Chain.latchEdge_out_length, h]

/-- A write of the level the line holds changes nothing in `CHAIN` (20_memory.md R59). -/
theorem drive_chain_of_held (r : Role) (v : Bit) (s : State) (h : s.line.get r = levelOf v) :
    (drive r v s).chain = s.chain :=
  if_pos h

/-- A write of the level the line holds changes nothing in `LINE` (20_memory.md R59). -/
theorem drive_line_of_held (r : Role) (v : Bit) (s : State) (h : s.line.get r = levelOf v) :
    (drive r v s).line = s.line := by
  rw [drive_line, ← h, Lines.set_get_self]

/-- The chain after a write of another level than the line's, in one equation (60_exceptions.md R174). -/
theorem drive_chain_of_moved (r : Role) (v : Bit) (s : State) (h : s.line.get r ≠ levelOf v) :
    (drive r v s).chain =
      (edgeReaction r (edge (s.line.get r) v) { s with line := s.line.set r (levelOf v) }
        (s.chain.mrClear { s with line := s.line.set r (levelOf v) : State }.mrEff)).mrClear
        { s with line := s.line.set r (levelOf v) : State }.mrEff := by
  have e : (drive r v s).chain = chainReact r (s.line.get r) v
      ({ s with line := s.line.set r (levelOf v) }.record (.write r v)) := if_neg h
  rw [e]; cases r <;> rfl

theorem drive_mrEff (r : Role) (v : Bit) (s : State) :
    (drive r v s).mrEff = { s with line := s.line.set r (levelOf v) : State }.mrEff := by
  cases r <;> rfl

theorem drive_mrEff_of_held (r : Role) (v : Bit) (s : State) (h : s.line.get r = levelOf v) :
    (drive r v s).mrEff = s.mrEff := by
  rw [drive_mrEff, ← h, Lines.set_get_self]

theorem drive_sr_length (r : Role) (v : Bit) (s : State) : (drive r v s).chain.sr.length = s.chain.sr.length := by
  by_cases h : s.line.get r = levelOf v
  · rw [drive_chain_of_held r v s h]
  · rw [drive_chain_of_moved r v s h]; simp [edgeReaction_sr_length]

theorem drive_out_length (r : Role) (v : Bit) (s : State) (h : s.chain.sr.length = s.chain.out.length) :
    (drive r v s).chain.out.length = s.chain.out.length := by
  by_cases hh : s.line.get r = levelOf v
  · rw [drive_chain_of_held r v s hh]
  · rw [drive_chain_of_moved r v s hh]; simp [edgeReaction_out_length, h]

/-- A write that moves a line without an edge leaves the chain to `MrClear` alone. -/
theorem drive_chain_of_no_edge (r : Role) (v : Bit) (s : State) (hm : s.line.get r ≠ levelOf v)
    (h : r = .data ∨ r = .oe ∨ r = .mr ∨ v = false) :
    (drive r v s).chain = s.chain.mrClear (drive r v s).mrEff := by
  have he : ∀ u c, edgeReaction r (edge (s.line.get r) v) u c = c := by
    intro u c
    rcases h with rfl | rfl | rfl | rfl
    · rfl
    · rfl
    · rfl
    · have e : edge (s.line.get r) false = .no := by cases s.line.get r <;> rfl
      cases r <;> simp [edgeReaction, e, Chain.latchEdge, bothEdges, Chain.shiftEdge]
  rw [drive_chain_of_moved r v s hm, drive_mrEff, he, Chain.mrClear_mrClear]

/-- Only a LATCH write of 1 changes the output latches. -/
theorem drive_out_of_not_latch (r : Role) (v : Bit) (s : State) (h : r ≠ .latch ∨ v = false) :
    (drive r v s).chain.out = s.chain.out := by
  by_cases hh : s.line.get r = levelOf v
  · rw [drive_chain_of_held r v s hh]
  · rcases h with h | rfl
    · rw [drive_chain_of_moved r v s hh]
      cases r <;> first | exact absurd rfl h | simp [edgeReaction]
    · rw [drive_chain_of_no_edge r false s hh (by simp)]; simp

/-! ### The marks -/

theorem mem_insertCause (x c : Cause) (ms : List Cause) : x ∈ insertCause c ms ↔ x = c ∨ x ∈ ms := by
  induction ms with
  | nil => simp [insertCause]
  | cons m ms ih =>
    simp only [insertCause]
    split
    · rename_i h; subst h; simp
    · split
      · simp
      · simp only [List.mem_cons, ih]
        constructor <;> rintro (h | h | h) <;> simp [h]

theorem Cause.number_injective {a b : Cause} (h : a.number = b.number) : a = b := by
  cases a <;> cases b <;> first | rfl | exact absurd h (by decide)

/-- Adding a cause keeps the canonical form of `MARKS`. -/
theorem insertCause_canonical (c : Cause) (ms : List Cause) (h : ms.Pairwise (fun a b => a.number < b.number)) :
    (insertCause c ms).Pairwise (fun a b => a.number < b.number) := by
  induction ms with
  | nil => simp [insertCause]
  | cons m ms ih =>
    rw [List.pairwise_cons] at h
    simp only [insertCause]
    split
    · exact List.pairwise_cons.mpr h
    · rename_i hne
      split
      · rename_i hlt
        refine List.pairwise_cons.mpr ⟨fun x hx => ?_, List.pairwise_cons.mpr h⟩
        rcases List.mem_cons.mp hx with rfl | hx
        · exact hlt
        · exact Nat.lt_trans hlt (h.1 x hx)
      · rename_i hge
        refine List.pairwise_cons.mpr ⟨fun x hx => ?_, ih h.2⟩
        rcases (mem_insertCause x c ms).mp hx with rfl | hx
        · have : m.number ≠ x.number := fun e => hne (Cause.number_injective e.symm)
          omega
        · exact h.1 x hx

/-! ### Line accesses -/

/-- A write with infallible writes is the write that takes place. -/
theorem pinWrite_of_infallible (r : Role) (v : Bit) (s : State) (h : s.platform.pinWritesFallible = false) :
    pinWrite r v s = (false, drive r v s) := by
  simp [pinWrite, h]

/-- What `pinWrite` can do: take place, or fail, having taken a draw or not. -/
theorem pinWrite_cases (r : Role) (v : Bit) (s : State) :
    ∃ d, pinWrite r v s = (false, drive r v { s with draws := d }) ∨
      (s.platform.pinWritesFallible = true ∧ pinWrite r v s = (true, loseWrite r { s with draws := d })) := by
  unfold pinWrite
  split
  · rename_i h
    split
    · exact ⟨_, .inr ⟨h, rfl⟩⟩
    · exact ⟨_, .inl rfl⟩
  · exact ⟨s.draws, .inl rfl⟩

/-- What `pinRead` can do: it returns a level `v`, the line is at `v` afterwards, and a known line has not moved. -/
theorem pinRead_cases (r : Role) (s : State) :
    ∃ v d, pinRead r s = (v, ({ s with line := s.line.set r (levelOf v), draws := d }).record (.read r v)) ∧
      (s.line.get r = .unknown ∨ s.line.get r = levelOf v ∧ d = s.draws) := by
  unfold pinRead
  split
  · rename_i h
    exact ⟨false, s.draws, by rw [levelOf_false, ← h, Lines.set_get_self], .inr ⟨h, rfl⟩⟩
  · rename_i h
    exact ⟨true, s.draws, by rw [levelOf_true, ← h, Lines.set_get_self], .inr ⟨h, rfl⟩⟩
  · rename_i h
    exact ⟨_, _, rfl, .inl h⟩

/-- A read of a line at a known level returns that level and records the event. -/
theorem pinRead_known (r : Role) (v : Bit) (s : State) (h : s.line.get r = levelOf v) :
    pinRead r s = (v, s.record (.read r v)) := by
  cases v <;> simp [levelOf] at h <;> simp [pinRead, h]

/-! ### Beginning, advancing and ending a command -/

/-- `phaseGate` answers next in exactly these cases. -/
theorem phaseGate_next {c : Command} {s t : State} {k : Host.Outcome State Fault Refusal}
    (h : phaseGate c s k = .next t) :
    (s.seq.phase = .busy ∧ t = concurrentCommand (s.issue c)) ∨
      (s.seq.phase = .destroyed ∧ t = refuse .destroyed (s.issue c)) ∨
      ((s.seq.phase = .unconfigured ∨ s.seq.phase = .idle) ∧ k = .next t) := by
  unfold phaseGate at h
  split at h
  · cases h
  · rename_i hp; cases h; exact .inl ⟨hp, rfl⟩
  · rename_i hp; cases h; exact .inr (.inl ⟨hp, rfl⟩)
  · rename_i hp; exact .inr (.inr ⟨.inl hp, h⟩)
  · rename_i hp; exact .inr (.inr ⟨.inr hp, h⟩)

/-- `phaseGate` outside BUSY, DESTROYED and FAULTED is what follows it. -/
theorem phaseGate_open (c : Command) (s : State) (k : Host.Outcome State Fault Refusal)
    (h : s.seq.phase = .unconfigured ∨ s.seq.phase = .idle) : phaseGate c s k = k := by
  rcases h with h | h <;> simp [phaseGate, h]

/-- What a command's meaning can do: the fault, a refusal, or its own rule on the state with the command issued. -/
theorem beginCommand_next {i : Instr} {s t : State} {k : State → State} (h : beginCommand i s k = .next t) :
    (s.seq.phase = .busy ∧ t = concurrentCommand (s.issue (encode i))) ∨
      (∃ cause, cause ≠ .concurrentCommand ∧ s.seq.phase ≠ .busy ∧ s.seq.phase ≠ .faulted ∧
        t = refuse cause (s.issue (encode i))) ∨
      ((s.seq.phase = .unconfigured ∧ i.isConstruct = true ∨ s.seq.phase = .idle ∧ i.isConstruct = false) ∧
        t = k (s.issue (encode i))) := by
  rcases phaseGate_next h with ⟨hp, rfl⟩ | ⟨hp, rfl⟩ | ⟨hp, hk⟩
  · exact .inl ⟨hp, rfl⟩
  · exact .inr (.inl ⟨.destroyed, by decide, by simp [hp], by simp [hp], rfl⟩)
  · rcases hp with hp | hp <;> cases hc : i.isConstruct <;> simp [hp, hc, phaseRefusal] at hk <;> subst hk
    · exact .inr (.inl ⟨.notConfigured, by decide, by simp [hp], by simp [hp], rfl⟩)
    · exact .inr (.inr ⟨.inl ⟨hp, rfl⟩, rfl⟩)
    · exact .inr (.inr ⟨.inr ⟨hp, rfl⟩, rfl⟩)
    · exact .inr (.inl ⟨.reconfigure, by decide, by simp [hp], by simp [hp], rfl⟩)

/-- A command of its right phase runs its own rule. -/
theorem beginCommand_open (i : Instr) (s : State) (k : State → State)
    (h : s.seq.phase = .unconfigured ∧ i.isConstruct = true ∨ s.seq.phase = .idle ∧ i.isConstruct = false) :
    beginCommand i s k = .next (k (s.issue (encode i))) := by
  rcases h with ⟨hp, hc⟩ | ⟨hp, hc⟩ <;> simp [beginCommand, phaseGate, phaseRefusal, hp, hc]

/-- What `advance` can do: only `SEQ.K` moves, or the command completes. -/
theorem advance_cases (ok : Response) (s : State) :
    (s.seq.k + 1 < s.seq.ops.length ∧ advance ok s = { s with seq := { s.seq with k := s.seq.k + 1 } }) ∨
      (s.seq.ops.length ≤ s.seq.k + 1 ∧ advance ok s = complete ok s) := by
  unfold advance
  split
  · rename_i h; exact .inl ⟨h, rfl⟩
  · rename_i h; exact .inr ⟨by omega, rfl⟩

/-- A write micro-op with infallible writes. -/
theorem performWrite_of_infallible (r : Role) (v : Bit) (s : State) (h : s.platform.pinWritesFallible = false) :
    performWrite r v s = advance .success (drive r v s) := by
  simp [performWrite, pinWrite_of_infallible r v s h]

/-- What a write micro-op can do: the write and the advance, or `PinIoError`. -/
theorem performWrite_cases (r : Role) (v : Bit) (s : State) :
    ∃ d, performWrite r v s = advance .success (drive r v { s with draws := d }) ∨
      (s.platform.pinWritesFallible = true ∧
        performWrite r v s = complete (.ioError r) (loseWrite r { s with draws := d })) := by
  obtain ⟨d, h | ⟨hf, h⟩⟩ := pinWrite_cases r v s
  · exact ⟨d, .inl (by simp [performWrite, h])⟩
  · exact ⟨d, .inr ⟨hf, by simp [performWrite, h]⟩⟩

end Sys2Proof.Machine
end

