-- ==== Sys2Proof/Laws/PerInstr.lean ====
section
/-! SUPPORT. One lemma per command: the record of a command selects exactly its own row of the opcode map, and fits
that row's format (30_encoding.md R72, R75). -/

namespace Sys2Proof.Laws.EncodesToRow

/-- The header of `encode i` selects one row, that of `i`'s mnemonic, and the row's format admits the record. -/
def Statement (i : Instr) : Prop :=
  (opcodeMap.filter fun row => row.selects (encode i).hdr).map (fun row => row.mnemonic) = [i.mnemonic] ∧
    ∀ row ∈ opcodeMap, row.selects (encode i).hdr = true → row.format.admits (encode i) = true

/-- The second half for a record, row by row. -/
theorem admits_iff (c : Command) :
    (∀ row ∈ opcodeMap, row.selects c.hdr = true → row.format.admits c = true) ↔
      (((c.hdr &&& 0xCF#8) == 0x00#8) = true → Format.cfg.admits c = true) ∧
        (((c.hdr &&& 0xFF#8) == 0x01#8) = true → Format.none.admits c = true) ∧
        (((c.hdr &&& 0xFF#8) == 0x02#8) = true → Format.none.admits c = true) ∧
        (((c.hdr &&& 0xFF#8) == 0x03#8) = true → Format.none.admits c = true) ∧
        (((c.hdr &&& 0xF7#8) == 0x04#8) = true → Format.shf.admits c = true) := by
  simp [opcodeMap, OpcodeRow.selects]

theorem construct (hasOE hasMR : Bit) (chipCount : Nat) : Statement (.construct hasOE hasMR chipCount) := by
  refine ⟨show (opcodeMap.filter fun row => row.selects (Instr.construct hasOE hasMR 0).header).map
    (fun row => row.mnemonic) = ["CONSTRUCT"] by revert hasOE hasMR; decide, (admits_iff _).mpr ?_⟩
  cases hasOE <;> cases hasMR <;> simp [encode, Instr.header, Format.admits]

theorem enableOutput : Statement .enableOutput :=
  ⟨rfl, (admits_iff _).mpr (by decide)⟩

theorem disableOutput : Statement .disableOutput :=
  ⟨rfl, (admits_iff _).mpr (by decide)⟩

theorem isOutputEnabled : Statement .isOutputEnabled :=
  ⟨rfl, (admits_iff _).mpr (by decide)⟩

theorem shift (reset : Bit) (bits : List Bit) : Statement (.shift reset bits) := by
  refine ⟨show (opcodeMap.filter fun row => row.selects (Instr.shift reset []).header).map
    (fun row => row.mnemonic) = ["SHIFT"] by revert reset; decide, (admits_iff _).mpr ?_⟩
  cases reset <;> simp [encode, Instr.header, Format.admits]

end Sys2Proof.Laws.EncodesToRow
end

