-- ==== Sys2Proof/Laws/Step.lean ====
section
/-! SUPPORT. What a step can do, said once: the inversion lemmas of step, takeCommand, exec and microStep. -/

namespace Sys2Proof.Machine

/-- What one step that answers next has done. -/
theorem step_next {s t : State} (h : step s = .next t) :
    (s.seq.phase ≠ .busy ∧ s.seq.phase ≠ .faulted ∧ ∃ rest, t = { s with host := rest }) ∨
      (s.seq.phase = .busy ∧ ∃ rest, t = microStep { s with host := rest }) ∨
      (∃ c rest, takeCommand c { s with host := rest } = .next t) ∨
      (s.seq.phase ≠ .busy ∧ s.seq.phase ≠ .faulted ∧ ∃ rest, t = endOfLife { s with host := rest }) := by
  have proceedCase : ∀ u : State, (∃ rest, u = { s with host := rest }) → proceed u = .next t →
      (s.seq.phase ≠ .busy ∧ s.seq.phase ≠ .faulted ∧ ∃ rest, t = { s with host := rest }) ∨
        (s.seq.phase = .busy ∧ ∃ rest, t = microStep { s with host := rest }) := by
    rintro _ ⟨rest, rfl⟩ hp
    unfold proceed at hp
    split at hp <;> rename_i hph <;> cases hp <;> simp at hph
    · exact .inr ⟨hph, rest, rfl⟩
    all_goals exact .inl ⟨by simp [hph], by simp [hph], rest, rfl⟩
  unfold step turn at h
  split at h
  · rcases proceedCase s ⟨s.host, rfl⟩ h with h | h
    · exact .inl h
    · exact .inr (.inl h)
  · rcases proceedCase _ ⟨_, rfl⟩ h with h | h
    · exact .inl h
    · exact .inr (.inl h)
  · exact .inr (.inr (.inl ⟨_, _, h⟩))
  · split at h
    · rcases proceedCase s ⟨s.host, rfl⟩ h with h | h
      · exact .inl h
      · exact .inr (.inl h)
    · exact .inr (.inr (.inl ⟨_, _, h⟩))
  · split at h
    · rcases proceedCase s ⟨s.host, rfl⟩ h with h | h
      · exact .inl h
      · exact .inr (.inl h)
    · cases h
    all_goals
      rename_i hp
      cases h
      exact .inr (.inr (.inr ⟨by simp [hp], by simp [hp], _, rfl⟩))

/-- What taking a record can do: the fault, a refusal, or the command's meaning. -/
theorem takeCommand_next {c : Command} {s t : State} (h : takeCommand c s = .next t) :
    (s.seq.phase = .busy ∧ t = concurrentCommand (s.issue c)) ∨
      (∃ cause, cause ≠ .concurrentCommand ∧ s.seq.phase ≠ .busy ∧ s.seq.phase ≠ .faulted ∧
        t = refuse cause (s.issue c)) ∨
      ((s.seq.phase = .unconfigured ∨ s.seq.phase = .idle) ∧ ∃ i, decode c = .ok i ∧ exec i s = .next t) := by
  rcases phaseGate_next h with ⟨hp, rfl⟩ | ⟨hp, rfl⟩ | ⟨hp, hk⟩
  · exact .inl ⟨hp, rfl⟩
  · exact .inr (.inl ⟨.destroyed, by decide, by simp [hp], by simp [hp], rfl⟩)
  · cases hd : decode c with
    | ok i => rw [hd] at hk; exact .inr (.inr ⟨hp, i, rfl, hk⟩)
    | rejected why =>
      rw [hd] at hk; cases hk
      rcases hp with hp | hp <;>
        exact .inr (.inl ⟨.illegalCommand, by decide, by simp [hp], by simp [hp], rfl⟩)

/-- What a command does once its phase checks have passed: its own rule, on the state with the command issued. -/
def ownRule (i : Instr) (s : State) : State :=
  match i with
  | .construct hasOE hasMR n =>
    if badChipCount s.platform n then refuse .badChipCount s else complete .success (configure hasOE hasMR n s)
  | .enableOutput => beginOE .enableOutput s
  | .disableOutput => beginOE .disableOutput s
  | .isOutputEnabled => beginOE .isOutputEnabled s
  | .shift reset bits => beginShift reset bits s

/-- Every meaning is the common beginning followed by the command's own rule. -/
theorem exec_eq_beginCommand (i : Instr) (s : State) : exec i s = beginCommand i s (ownRule i) := by
  cases i <;> rfl

/-- What the meaning of a command can do. -/
theorem exec_next {i : Instr} {s t : State} (h : exec i s = .next t) :
    (s.seq.phase = .busy ∧ t = concurrentCommand (s.issue (encode i))) ∨
      (∃ cause, cause ≠ .concurrentCommand ∧ s.seq.phase ≠ .busy ∧ s.seq.phase ≠ .faulted ∧
        t = refuse cause (s.issue (encode i))) ∨
      ((s.seq.phase = .unconfigured ∧ i.isConstruct = true ∨ s.seq.phase = .idle ∧ i.isConstruct = false) ∧
        t = ownRule i (s.issue (encode i))) :=
  beginCommand_next (exec_eq_beginCommand i s ▸ h)

/-- What one micro-op can do: the write and the advance, `PinIoError`, the read and the advance, or (past the end of
the list) completion. -/
theorem microStep_cases (s : State) :
    (∃ r v d, s.seq.ops[s.seq.k]? = some (.write r v) ∧
        microStep s = advance .success (drive r v { s with draws := d })) ∨
      (∃ r v d, s.seq.ops[s.seq.k]? = some (.write r v) ∧ s.platform.pinWritesFallible = true ∧
        microStep s = complete (.ioError r) (loseWrite r { s with draws := d })) ∨
      (∃ r v d, s.seq.ops[s.seq.k]? = some (.read r) ∧
        (s.line.get r = .unknown ∨ s.line.get r = levelOf v ∧ d = s.draws) ∧
        microStep s = advance (readResponse s.seq.cmd v)
          { s with
            line := s.line.set r (levelOf v)
            draws := d
            hist := s.hist ++ [.read r v]
            seq := { s.seq with ops := s.seq.ops ++ followUp s.seq.cmd v } }) ∨
      (s.seq.ops[s.seq.k]? = none ∧ microStep s = complete .success s) := by
  cases hop : s.seq.ops[s.seq.k]? with
  | none => exact .inr (.inr (.inr ⟨rfl, by simp [microStep, hop]⟩))
  | some op =>
    cases op with
    | write r v =>
      obtain ⟨d, h | ⟨hf, h⟩⟩ := performWrite_cases r v s
      · exact .inl ⟨r, v, d, rfl, by simp [microStep, hop, h]⟩
      · exact .inr (.inl ⟨r, v, d, rfl, hf, by simp [microStep, hop, h]⟩)
    | read r =>
      obtain ⟨v, d, h, hl⟩ := pinRead_cases r s
      exact .inr (.inr (.inl ⟨r, v, d, rfl, hl, by simp [microStep, hop, performRead, h, State.record]⟩))

/-- A write micro-op of a command in progress, with infallible writes. -/
theorem microStep_write {s : State} {r : Role} {v : Bit} (hop : s.seq.ops[s.seq.k]? = some (.write r v))
    (hf : s.platform.pinWritesFallible = false) : microStep s = advance .success (drive r v s) := by
  simp [microStep, hop, performWrite_of_infallible r v s hf]

end Sys2Proof.Machine
end

