-- ==== Sys2Proof/Laws/Run.lean ====
section
/-! SUPPORT. Runs of many steps: how a run composes, and a stretch of write micro-ops as one equation. -/

namespace Sys2Proof.Machine

@[simp] theorem runs_zero (s : State) : runs 0 s = .next s := rfl

/-- A run of one more step, from a step that answers next. -/
theorem runs_succ {s u : State} (k : Nat) (h : step s = .next u) : runs (k + 1) s = runs k u := by
  simp [runs, h]

/-- A run of at least one step that answers next has taken its first step. -/
theorem runs_succ_next {s t : State} {k : Nat} (h : runs (k + 1) s = .next t) :
    ∃ u, step s = .next u ∧ runs k u = .next t := by
  cases hs : step s with
  | next u => exact ⟨u, rfl, by simpa [runs, hs] using h⟩
  | fault f => simp [runs, hs] at h
  | refused f => simp [runs, hs] at h

/-- One step of a run, for any machine of the host's interface. -/
theorem coreRun_succ (M : Host.Core) (k : Nat) (s : M.State) :
    (∀ s', M.step s = .next s' → M.run (k + 1) s = M.run k s') ∧
      (∀ f, M.step s = .fault f → M.run (k + 1) s = .fault f) ∧
      (∀ f, M.step s = .refused f → M.run (k + 1) s = .refused f) := by
  refine ⟨fun _ h => ?_, fun _ h => ?_, fun _ h => ?_⟩ <;> simp [Host.Core.run, h]

/-- `runs` is the host interface's run of this machine. -/
theorem runs_eq_coreRun (k : Nat) (s : State) : runs k s = Host.Core.run Sys2Proof.core k s := by
  induction k generalizing s with
  | zero => rfl
  | succ k ih =>
    obtain ⟨hn, hf, hr⟩ := coreRun_succ Sys2Proof.core k s
    cases h : step s with
    | next u => exact (runs_succ k h).trans ((ih u).trans (hn u h).symm)
    | fault f => exact (show runs (k + 1) s = .fault f by simp [runs, h]).trans (hf f h).symm
    | refused f => exact (show runs (k + 1) s = .refused f by simp [runs, h]).trans (hr f h).symm

/-- Runs compose. -/
theorem runs_add {s u : State} (a b : Nat) (h : runs a s = .next u) : runs (a + b) s = runs b u := by
  induction a generalizing s with
  | zero => cases h; simp
  | succ a ih =>
    obtain ⟨v, hs, hv⟩ := runs_succ_next h
    rw [Nat.succ_add, runs_succ _ hs, ih hv]

/-- A BUSY controller whose host does not intrude performs the next micro-op. -/
theorem step_busy {s : State} (hp : s.seq.phase = .busy) (hh : hostBlocks s.host = true) :
    step s = .next (microStep s) := by
  unfold step turn
  cases hs : s.host with
  | nil => simp [proceed, hp]
  | cons a rest =>
    cases a with
    | present c => simp [hs, hostBlocks] at hh
    | call c => simp [proceed, hp]
    | release => simp [proceed, hp]
    | pass => simp [hs, hostBlocks] at hh

/-- A blocking call to a controller that is not BUSY is `exec` of the command. -/
theorem step_call {s : State} {i : Instr} {rest : List HostAction} (hd : decode (encode i) = .ok i)
    (hs : s.host = .call (encode i) :: rest) (hp : s.seq.phase = .unconfigured ∨ s.seq.phase = .idle) :
    step s = exec i { s with host := rest } := by
  have hb : s.seq.phase ≠ .busy := by rcases hp with h | h <;> simp [h]
  have ht : step s = takeCommand (encode i) { s with host := rest } := by
    unfold step turn; rw [hs]; simp [hb]
  rw [ht]
  unfold takeCommand
  rw [hd]
  exact phaseGate_open _ _ _ hp

/-- A stretch of writes that take place, without the sequencer's bookkeeping. -/
def drives : List MicroOp → State → State
  | [], s => s
  | .write r v :: ops, s => drives ops (drive r v s)
  | .read _ :: ops, s => drives ops s

/-- `s` with another sequencer: the only way the lemmas below write that. -/
def State.withSeq (s : State) (q : Sequencer) : State := { s with seq := q }

@[simp] theorem State.withSeq_cfg (s : State) (q : Sequencer) : (s.withSeq q).cfg = s.cfg := rfl
@[simp] theorem State.withSeq_line (s : State) (q : Sequencer) : (s.withSeq q).line = s.line := rfl
@[simp] theorem State.withSeq_seq (s : State) (q : Sequencer) : (s.withSeq q).seq = q := rfl
@[simp] theorem State.withSeq_chain (s : State) (q : Sequencer) : (s.withSeq q).chain = s.chain := rfl
@[simp] theorem State.withSeq_hist (s : State) (q : Sequencer) : (s.withSeq q).hist = s.hist := rfl
@[simp] theorem State.withSeq_marks (s : State) (q : Sequencer) : (s.withSeq q).marks = s.marks := rfl
@[simp] theorem State.withSeq_platform (s : State) (q : Sequencer) : (s.withSeq q).platform = s.platform := rfl
@[simp] theorem State.withSeq_draws (s : State) (q : Sequencer) : (s.withSeq q).draws = s.draws := rfl
@[simp] theorem State.withSeq_host (s : State) (q : Sequencer) : (s.withSeq q).host = s.host := rfl
@[simp] theorem State.withSeq_withSeq (s : State) (p q : Sequencer) : (s.withSeq p).withSeq q = s.withSeq q := rfl
@[simp] theorem State.withSeq_self (s : State) : s.withSeq s.seq = s := rfl

/-- `drive` neither reads nor writes the sequencer. -/
@[simp] theorem drive_withSeq (r : Role) (v : Bit) (s : State) (q : Sequencer) :
    drive r v (s.withSeq q) = (drive r v s).withSeq q := by
  cases r <;> rfl

@[simp] theorem drives_withSeq (ops : List MicroOp) (s : State) (q : Sequencer) :
    drives ops (s.withSeq q) = (drives ops s).withSeq q := by
  induction ops generalizing s with
  | nil => rfl
  | cons op ops ih => cases op <;> simp [drives, ih]

/-- Completing a command ignores what the sequencer held. -/
@[simp] theorem complete_withSeq (resp : Response) (s : State) (q : Sequencer) :
    complete resp (s.withSeq q) = complete resp s := rfl

/-- `s` with another count of draws. -/
def State.withDraws (s : State) (d : Nat) : State := { s with draws := d }

@[simp] theorem State.withDraws_cfg (s : State) (d : Nat) : (s.withDraws d).cfg = s.cfg := rfl
@[simp] theorem State.withDraws_line (s : State) (d : Nat) : (s.withDraws d).line = s.line := rfl
@[simp] theorem State.withDraws_seq (s : State) (d : Nat) : (s.withDraws d).seq = s.seq := rfl
@[simp] theorem State.withDraws_chain (s : State) (d : Nat) : (s.withDraws d).chain = s.chain := rfl
@[simp] theorem State.withDraws_hist (s : State) (d : Nat) : (s.withDraws d).hist = s.hist := rfl
@[simp] theorem State.withDraws_marks (s : State) (d : Nat) : (s.withDraws d).marks = s.marks := rfl
@[simp] theorem State.withDraws_platform (s : State) (d : Nat) : (s.withDraws d).platform = s.platform := rfl
@[simp] theorem State.withDraws_draws (s : State) (d : Nat) : (s.withDraws d).draws = d := rfl
@[simp] theorem State.withDraws_host (s : State) (d : Nat) : (s.withDraws d).host = s.host := rfl
@[simp] theorem State.withDraws_withDraws (s : State) (c d : Nat) : (s.withDraws c).withDraws d = s.withDraws d := rfl
@[simp] theorem State.withDraws_self (s : State) : s.withDraws s.draws = s := rfl

/-- The two updates commute; the sequencer is written outermost. -/
@[simp] theorem State.withSeq_withDraws (s : State) (q : Sequencer) (d : Nat) :
    (s.withSeq q).withDraws d = (s.withDraws d).withSeq q := rfl

/-- A write that takes place does not read the count of draws. -/
@[simp] theorem drive_withDraws (r : Role) (v : Bit) (s : State) (d : Nat) :
    drive r v (s.withDraws d) = (drive r v s).withDraws d := by
  cases r <;> rfl

@[simp] theorem drives_withDraws (ops : List MicroOp) (s : State) (d : Nat) :
    drives ops (s.withDraws d) = (drives ops s).withDraws d := by
  induction ops generalizing s with
  | nil => rfl
  | cons op ops ih => cases op <;> simp [drives, ih]

@[simp] theorem complete_withDraws (resp : Response) (s : State) (d : Nat) :
    complete resp (s.withDraws d) = (complete resp s).withDraws d := rfl

/-- A later count of draws keeps "no line write fails from here on". -/
theorem State.WritesSucceed.later {s t : State} (h : s.WritesSucceed) (hp : t.platform = s.platform)
    (hd : s.draws ≤ t.draws) : t.WritesSucceed := by
  rcases h with h | h
  · exact .inl (by rw [hp]; exact h)
  · exact .inr fun n hn => h n (Nat.le_trans hd hn)

/-- A write micro-op of a command in progress when no write fails: the write and the advance; a draw is taken only
where writes are fallible. -/
theorem microStep_write_succeeds {s : State} {r : Role} {v : Bit} (hop : s.seq.ops[s.seq.k]? = some (.write r v))
    (hf : s.WritesSucceed) :
    ∃ d, s.draws ≤ d ∧ (s.platform.pinWritesFallible = false → d = s.draws) ∧
      microStep s = advance .success ((drive r v s).withDraws d) := by
  cases hp : s.platform.pinWritesFallible with
  | false => exact ⟨s.draws, Nat.le_refl _, fun _ => rfl, by rw [microStep_write hop hp]; rfl⟩
  | true =>
    have hw : Config.writeFails s.draws = false := by
      rcases hf with h | h
      · simp [hp] at h
      · exact h _ (Nat.le_refl _)
    refine ⟨s.draws + 1, Nat.le_succ _, fun h => by simp at h, ?_⟩
    have he : drive r v { s with draws := s.draws + 1 } = (drive r v s).withDraws (s.draws + 1) :=
      drive_withDraws r v s (s.draws + 1)
    simp [microStep, hop, performWrite, pinWrite, hp, hw, he]

theorem drives_append (a b : List MicroOp) (s : State) : drives (a ++ b) s = drives b (drives a s) := by
  induction a generalizing s with
  | nil => rfl
  | cons op a ih => cases op <;> simp [drives, ih]

/-- What a stretch of writes leaves alone, and the events it records. -/
theorem drives_frame (ops : List MicroOp) (s : State) :
    (drives ops s).cfg = s.cfg ∧ (drives ops s).seq = s.seq ∧ (drives ops s).marks = s.marks ∧
      (drives ops s).platform = s.platform ∧ (drives ops s).draws = s.draws ∧ (drives ops s).host = s.host ∧
      (drives ops s).hist = s.hist ++ writeEvents ops := by
  induction ops generalizing s with
  | nil => simp [drives, writeEvents]
  | cons op ops ih =>
    cases op with
    | write r v => simpa [drives, writeEvents] using ih (drive r v s)
    | read r => simpa [drives, writeEvents] using ih s

/-- `n` steps inside a list of writes: the writes, and `SEQ.K` moved by `n`. -/
theorem runs_writes_inside (n : Nat) (s : State) (hp : s.seq.phase = .busy) (hh : hostBlocks s.host = true)
    (hf : s.WritesSucceed) (hw : ∀ op ∈ s.seq.ops, ∃ r v, op = .write r v) (hn : s.seq.k + n < s.seq.ops.length) :
    ∃ d, s.draws ≤ d ∧ (s.platform.pinWritesFallible = false → d = s.draws) ∧
      runs n s = .next (((drives ((s.seq.ops.drop s.seq.k).take n) s).withDraws d).withSeq
        { s.seq with k := s.seq.k + n }) := by
  induction n generalizing s with
  | zero => exact ⟨s.draws, Nat.le_refl _, fun _ => rfl, by simp [drives, State.withSeq]⟩
  | succ n ih =>
    have hk : s.seq.k < s.seq.ops.length := by omega
    obtain ⟨r, v, hrv⟩ := hw _ (List.getElem_mem hk)
    have hop : s.seq.ops[s.seq.k]? = some (.write r v) := by rw [List.getElem?_eq_getElem hk, hrv]
    obtain ⟨d, hd, hdf, hm⟩ := microStep_write_succeeds hop hf
    have hs : step s = .next (((drive r v s).withDraws d).withSeq { s.seq with k := s.seq.k + 1 }) := by
      rw [step_busy hp hh, hm, advance, if_pos (by simp; omega)]
      rfl
    obtain ⟨e, he, hef, hr⟩ := ih (((drive r v s).withDraws d).withSeq { s.seq with k := s.seq.k + 1 }) hp
      (by simpa using hh) (hf.later (by simp) (by simpa using hd)) hw (by simp; omega)
    have hdrop : s.seq.ops.drop s.seq.k = .write r v :: s.seq.ops.drop (s.seq.k + 1) := by
      rw [List.drop_eq_getElem_cons hk, hrv]
    refine ⟨e, Nat.le_trans hd he, fun h => (hef (by simpa using h)).trans (hdf h), ?_⟩
    rw [runs_succ n hs, hr]
    simp [hdrop, drives, Nat.add_assoc, Nat.add_comm 1 n]

/-- The run of a whole list of writes from its current place to its end. -/
theorem runs_writes_to_end (n : Nat) (s : State) (hp : s.seq.phase = .busy) (hh : hostBlocks s.host = true)
    (hf : s.WritesSucceed) (hw : ∀ op ∈ s.seq.ops, ∃ r v, op = .write r v)
    (hn : s.seq.k + (n + 1) = s.seq.ops.length) :
    ∃ d, s.draws ≤ d ∧ (s.platform.pinWritesFallible = false → d = s.draws) ∧
      runs (n + 1) s = .next ((complete .success (drives (s.seq.ops.drop s.seq.k) s)).withDraws d) := by
  obtain ⟨d, hd, hdf, hr⟩ := runs_writes_inside n s hp hh hf hw (by omega)
  have hk : s.seq.k + n < s.seq.ops.length := by omega
  obtain ⟨r, v, hrv⟩ := hw _ (List.getElem_mem hk)
  obtain ⟨_, _, _, hpl, _, hho, _⟩ := drives_frame ((s.seq.ops.drop s.seq.k).take n) s
  have hdrop : s.seq.ops.drop s.seq.k = (s.seq.ops.drop s.seq.k).take n ++ [.write r v] := by
    have hlast : (s.seq.ops.drop s.seq.k).drop n = [.write r v] := by
      rw [List.drop_drop, List.drop_eq_getElem_cons hk, hrv, List.drop_eq_nil_of_le (by omega)]
    rw [← hlast, List.take_append_drop]
  generalize hu : ((drives ((s.seq.ops.drop s.seq.k).take n) s).withDraws d).withSeq
    { s.seq with k := s.seq.k + n } = u at hr
  have hop : u.seq.ops[u.seq.k]? = some (.write r v) := by
    subst hu; simp only [State.withSeq_seq]; rw [List.getElem?_eq_getElem hk, hrv]
  obtain ⟨e, he, hef, hm⟩ := microStep_write_succeeds hop
    (hf.later (by subst hu; simpa using hpl) (by subst hu; simpa using hd))
  refine ⟨e, Nat.le_trans hd (by subst hu; simpa using he), fun h => (hef (by subst hu; simpa [hpl] using h)).trans (by subst hu; simpa using hdf h), ?_⟩
  rw [runs_add n 1 hr, runs_succ 0 (step_busy (by subst hu; exact hp) (by subst hu; simpa [hho] using hh)), runs_zero,
    hm, advance, if_neg (by subst hu; simp; omega)]
  subst hu
  conv => rhs; rw [hdrop, drives_append]
  simp [drives]

end Sys2Proof.Machine
end

