-- ==== Sys2Proof/Tests/Slice0.lean ====
section
/-! SUPPORT. The model's own tests, each expected value taken from the spec (95_test_vectors.md unless a comment says
otherwise), and for every obligation with hypotheses a witness that meets them. -/

namespace Sys2Proof.Machine.Tests

/-- The pattern of V-S1, `10110010`. -/
def pattern : List Bit := [true, false, true, true, false, false, true, false]

/-- A vector of known levels. -/
def known (bits : List Bit) : List Level := bits.map levelOf

/-- Every line at one level. -/
def allLines (v : Level) : Lines := ⟨v, v, v, v, v⟩

/-- An IDLE controller with configuration `c` and lines `l`, the stages and the latches both at `v`. -/
def idle (c : Cfg) (l : Lines) (v : List Level) : State :=
  { State.reset with cfg := some c, line := l, seq := { State.reset.seq with phase := .idle }, chain := ⟨v, v⟩ }

/-- One chip without OE or MR, IDLE, as CONSTRUCT leaves it. -/
def bare : State := idle ⟨1, false, false⟩ (allLines .unknown) (unknowns 8)

/-- One chip with OE, IDLE, OE at `oe`, the latches at `pattern` (the configuration of §2.3). -/
def withOE (oe : Level) : State :=
  idle ⟨1, true, false⟩ ⟨.unknown, .unknown, .unknown, oe, .unknown⟩ (known pattern)

/-- One chip with MR, IDLE, MR at `mr`. -/
def withMR (mr : Level) : State :=
  idle ⟨1, false, true⟩ ⟨.unknown, .unknown, .unknown, .unknown, mr⟩ (unknowns 8)

/-- The SHIFT of V-S1 at micro-op `k`, with lines `l` and stages `sr`. -/
def shifting (k : Nat) (l : Lines) (sr : List Level) : State :=
  { bare with
    line := l
    chain := ⟨sr, unknowns 8⟩
    seq := ⟨.busy, shiftOps pattern false, k, some (.shift false pattern), none⟩
    hist := [.cmd (encode (.shift false pattern))] }

/-- V-S1 before op 5, the first CLOCK edge. -/
def atFirstEdge : State := shifting 5 ⟨.zero, .zero, .zero, .unknown, .unknown⟩ (unknowns 8)

/-- V-S1 before op 36, the LATCH edge. -/
def atLatchEdge : State := shifting 36 ⟨.zero, .zero, .zero, .unknown, .unknown⟩ (known pattern)

/-- An OE command `i` before its read. -/
def reading (i : Instr) (oe : Level) : State :=
  { withOE oe with
    seq := ⟨.busy, [.read .oe], 0, some i, none⟩
    hist := [.cmd (encode i)] }

/-- `s` with the host's next actions. -/
def hosted (s : State) (h : List HostAction) : State := { s with host := h }

/-- `s` in phase `p`. -/
def inPhase (p : Phase) (s : State) : State := { s with seq := { s.seq with phase := p } }

/-- What a step shows of its outcome, if it answers a next state. -/
def seen {α : Type} (o : Host.Outcome State Fault Refusal) (f : State → α) : Option α :=
  match o with
  | .next t => some (f t)
  | .fault _ => none
  | .refused _ => none

/-! ### Well-formedness -/

/-- R72: a CONSTRUCT with a zero chip count is outside the domain, with 1 it is inside. -/
theorem test_wellFormed_chipCount :
    (Instr.construct true false 0).wellFormed = false ∧ (Instr.construct true false 1).wellFormed = true := by decide

/-! ### Decoding -/

/-- The header bits of R71 and R75 written bit 7 first: 00 M O 0 000, 00000 OP, 0000 R 100. -/
theorem test_decode_bit_by_bit :
    decode ⟨0b00010000#8, 2, []⟩ = .ok (.construct true false 2) ∧
    decode ⟨0b00100000#8, 1, []⟩ = .ok (.construct false true 1) ∧
    decode ⟨0b00000001#8, 0, []⟩ = .ok .enableOutput ∧
    decode ⟨0b00000010#8, 0, []⟩ = .ok .disableOutput ∧
    decode ⟨0b00000011#8, 0, []⟩ = .ok .isOutputEnabled ∧
    decode ⟨0b00000100#8, 0, pattern⟩ = .ok (.shift false pattern) ∧
    decode ⟨0b00001100#8, 0, pattern⟩ = .ok (.shift true pattern) := by decide

/-- V-D1, V-D4, V-D5, V-D19. -/
theorem test_decode_vectors :
    decode ⟨0x00#8, 1, []⟩ = .ok (.construct false false 1) ∧ decode ⟨0x30#8, 3, []⟩ = .ok (.construct true true 3) ∧
    decode ⟨0x00#8, 0, []⟩ = .ok (.construct false false 0) ∧ decode ⟨0x04#8, 0, []⟩ = .ok (.shift false []) := by decide

/-- V-D6 to V-D8, V-D12 to V-D16, V-D20 to V-D27: each reserved encoding, rejected by its name. -/
theorem test_reserved_rejected_by_name :
    decode ⟨0x08#8, 1, []⟩ = .rejected .strayFlag ∧ decode ⟨0x00#8, 1, [true]⟩ = .rejected .strayBits ∧
    decode ⟨0x40#8, 1, []⟩ = .rejected .reservedHeaderBits ∧ decode ⟨0x09#8, 0, []⟩ = .rejected .strayFlag ∧
    decode ⟨0x11#8, 0, []⟩ = .rejected .strayFlag ∧ decode ⟨0x23#8, 0, []⟩ = .rejected .strayFlag ∧
    decode ⟨0x01#8, 1, []⟩ = .rejected .strayCount ∧ decode ⟨0x03#8, 0, [false]⟩ = .rejected .strayBits ∧
    decode ⟨0x04#8, 5, pattern⟩ = .rejected .strayCount ∧ decode ⟨0x14#8, 0, pattern⟩ = .rejected .strayFlag ∧
    decode ⟨0x2C#8, 0, pattern⟩ = .rejected .strayFlag ∧ decode ⟨0x05#8, 0, []⟩ = .rejected .reservedOp ∧
    decode ⟨0x06#8, 0, []⟩ = .rejected .reservedOp ∧ decode ⟨0x07#8, 0, []⟩ = .rejected .reservedOp ∧
    decode ⟨0xFF#8, 0, []⟩ = .rejected .reservedHeaderBits ∧
    decode ⟨0x84#8, 0, pattern⟩ = .rejected .reservedHeaderBits := by decide

/-- The table's rows by their match value, the bits above the header zero; a reserved OP is none. -/
theorem test_table_words :
    decodeTableWord 8 0x00 = some (.construct false false 0) ∧ decodeTableWord 8 0x02 = some .disableOutput ∧
    decodeTableWord 8 0x0C = some (.shift true []) ∧ decodeTableWord 8 0x05 = none ∧
    decodeTableWord 16 0x0104 = none := by decide

/-- S10: the defaults of the source's two signatures. -/
theorem test_source_defaults :
    sourceNew = ⟨0x00#8, 1, []⟩ ∧ sourceShift pattern = ⟨0x04#8, 0, pattern⟩ := by decide

/-- The spellings of programs P1 and P2. -/
theorem test_text :
    (Instr.construct true true 1).text = "CONSTRUCT 1, OE, MR" ∧ (Instr.construct false false 2).text = "CONSTRUCT 2" ∧
    (Instr.shift true [true, false]).text = "SHIFT.R [1,0]" ∧ Instr.enableOutput.text = "ENABLE_OUTPUT" := by decide

/-! ### One step of each command -/

/-- V-C1: CONSTRUCT 1, OE, MR. -/
theorem test_construct_configures :
    seen (exec (.construct true true 1) State.reset) (fun t => (t.seq.phase, t.cfg, t.line, t.chain.out)) =
      some (.idle, some ⟨1, true, true⟩, allLines .unknown, unknowns 8) := by decide

/-- V-C6 and V-C7: 5 and 4 chips where `MAX_CHIPS` is 4. -/
theorem test_construct_max_chips :
    let s := { State.reset with platform := { State.reset.platform with maxChips := some 4 } }
    seen (exec (.construct false false 5) s) (fun t => (t.seq.phase, t.marks, t.cfg)) =
        some (.unconfigured, [.badChipCount], none) ∧
      seen (exec (.construct false false 4) s) (fun t => (t.seq.phase, t.stages)) = some (.idle, 32) := by decide

/-- V-O2: OE already low: the read is the last micro-op. -/
theorem test_enable_already_low :
    seen (step (reading .enableOutput .zero)) (fun t => (t.seq.phase, t.line.oe, t.hist.tail)) =
      some (.idle, .zero, [.read .oe false, .resp ⟨.ok, false, 0, 0, none⟩]) := by decide

/-- V-O1: OE high: the write of 0 is added and not yet performed. -/
theorem test_enable_adds_the_write :
    seen (step (reading .enableOutput .one)) (fun t => (t.seq.phase, t.line.oe, t.seq.ops[t.seq.k]?)) =
      some (.busy, .one, some (.write .oe false)) := by decide

/-- V-O5: OE already high. -/
theorem test_disable_already_high :
    seen (step (reading .disableOutput .one)) (fun t => (t.seq.phase, t.line.oe, t.visible)) =
      some (.idle, .one, List.replicate 8 .z) := by decide

/-- V-O4: OE low: the write of 1 is added. -/
theorem test_disable_adds_the_write :
    seen (step (reading .disableOutput .zero)) (fun t => (t.seq.phase, t.line.oe, t.seq.ops[t.seq.k]?)) =
      some (.busy, .zero, some (.write .oe true)) := by decide

/-- V-O7 and V-O8: the answer is 1 when OE reads 0, and 0 when it reads 1. -/
theorem test_query_answers :
    seen (step (reading .isOutputEnabled .zero)) (fun t => (t.seq.phase, t.seq.resp)) =
        some (.idle, some ⟨.ok, true, 0, 0, none⟩) ∧
      seen (step (reading .isOutputEnabled .one)) (fun t => (t.seq.phase, t.seq.resp)) =
        some (.idle, some ⟨.ok, false, 0, 0, none⟩) := by decide

/-- V-O9 and V-E4: without an OE line, and after the end of life. -/
theorem test_query_without_line :
    seen (exec .isOutputEnabled bare) (fun t => (t.seq.resp, t.hist.length)) =
        some (some ⟨.unmanagedPin, false, 0, 0, some .oe⟩, 2) ∧
      seen (exec .isOutputEnabled (inPhase .destroyed (withOE .one))) (fun t => (t.seq.resp, t.hist.length)) =
        some (some ⟨.destroyed, false, 0, 0, none⟩, 2) := by decide

/-- V-S11 and V-S10: the length error comes first, then the missing MR. -/
theorem test_shift_errors :
    seen (exec (.shift true (false :: pattern)) bare) (fun t => (t.seq.phase, t.seq.resp)) =
        some (.idle, some ⟨.invalidLength, false, 8, 9, none⟩) ∧
      seen (exec (.shift true pattern) bare) (fun t => (t.seq.phase, t.seq.resp)) =
        some (.idle, some ⟨.unmanagedPin, false, 0, 0, some .mr⟩) := by decide

/-- V-S1, ops 5 and 36. -/
theorem test_shift_edges :
    seen (step atFirstEdge) (fun t => (t.seq.k, t.chain.sr, t.chain.out)) =
        some (6, .zero :: unknowns 7, unknowns 8) ∧
      seen (step atLatchEdge) (fun t => (t.seq.phase, t.seq.k, t.chain.out)) = some (.idle, 0, known pattern) := by decide

/-- V-S1's counts and V-S2's: 37 and 39 writes; the first two of V-S2 are the pulse. -/
theorem test_shift_list :
    (shiftOps pattern false).length = 37 ∧ (shiftOps pattern true).length = 39 ∧
    (shiftOps pattern true).take 3 = [.write .mr false, .write .mr true, .write .clock false] ∧
    (shiftOps pattern false)[8]? = some (.write .data true) ∧ (shiftOps pattern false)[32]? = some (.write .data true) := by
  decide

/-! ### Chain reactions (§2.5) -/

/-- A chain driven directly, MR tied high. -/
def driven (latch clock data : Level) (sr out : List Bit) : State :=
  { bare with line := ⟨latch, clock, data, .unknown, .unknown⟩, chain := ⟨known sr, known out⟩ }

def zeros : List Bit := List.replicate 8 false

/-- V-K1 to V-K4 and V-K11. -/
theorem test_clock_edges :
    (drive .clock true (driven .zero .zero .one zeros zeros)).chain.sr = .one :: known zeros.tail ∧
    (drive .clock true (driven .zero .one .one zeros zeros)).chain.sr = known zeros ∧
    (drive .clock false (driven .zero .one .one (true :: zeros.tail) zeros)).chain.sr = known (true :: zeros.tail) ∧
    (drive .clock true (driven .zero .unknown .one zeros zeros)).chain.sr = .unknown :: known zeros.tail ∧
    (drive .clock true (driven .zero .zero .zero (true :: List.replicate 6 false ++ [true]) zeros)).chain.sr =
      known (false :: true :: List.replicate 6 false) := by decide

/-- V-K9 and V-K10: a CLOCK edge while LATCH is high. -/
theorem test_clock_while_latch_high :
    let s := driven .one .zero .one zeros zeros
    (drive .clock true s).chain.sr = .one :: known zeros.tail ∧
    (drive .clock true { s with platform := { s.platform with shiftWhileLatchHigh := false } }).chain.sr =
      known zeros := by decide

/-- V-K5 and V-K6: `OUT = ⊥0⊥⊥00⊥0` from an unknown level. -/
theorem test_latch_edges :
    (drive .latch true (driven .zero .zero .zero pattern zeros)).chain.out = known pattern ∧
    (drive .latch true (driven .unknown .zero .zero pattern zeros)).chain.out =
      pattern.map (fun b => if b then .unknown else .zero) := by decide

/-- V-K7, and V-K8: the bit that a CLOCK edge brings in is cleared after the edge. -/
theorem test_master_reset :
    let s := withMR .one
    let ones := known (List.replicate 8 true)
    (drive .mr false { s with chain := ⟨ones, ones⟩ }).chain = ⟨known zeros, ones⟩ ∧
    (drive .clock true { s with line := ⟨.zero, .zero, .one, .unknown, .zero⟩, chain := ⟨known zeros, ones⟩ }).chain.sr =
      known zeros := by decide

/-- `s` on a platform that ties MR low. -/
def tiedLow (s : State) : State := { s with platform := { s.platform with mrTied := false } }

/-- 20_memory.md R59: with MR tied low and unknown stages, CLOCK 0 written onto 0 changes nothing in `CHAIN`, but is an
event; a CLOCK edge then clears the stages (R176). -/
theorem test_held_level_write :
    (drive .clock false (tiedLow atFirstEdge)).chain = ⟨unknowns 8, unknowns 8⟩ ∧
    (drive .clock false (tiedLow atFirstEdge)).hist = atFirstEdge.hist ++ [.write .clock false] ∧
    (drive .clock true (tiedLow atFirstEdge)).chain.sr = known zeros := by decide

/-- V-K12. -/
theorem test_visible :
    (withOE .zero).visible = pattern.map (fun b => if b then .one else .zero) ∧
    (withOE .one).visible = List.replicate 8 .z ∧ (withOE .unknown).visible = List.replicate 8 .unknown := by decide

/-- 20_memory.md R50 and R54: the roles' numbers, and pin 15 is the last pin of the second chip. -/
theorem test_addresses :
    [Role.latch, .clock, .data, .oe, .mr].map roleNumber = [0, 1, 2, 3, 4] ∧ chipOf 15 = 1 ∧ localPin 15 = 7 := by decide

/-! ### Refusals and the fault (§2.6) -/

/-- V-E1 to V-E3. -/
theorem test_refusal_order :
    seen (takeCommand ⟨0x01#8, 0, []⟩ State.reset) (fun t => (t.seq.phase, t.marks)) =
        some (.unconfigured, [.notConfigured]) ∧
      seen (takeCommand ⟨0x05#8, 0, []⟩ State.reset) (fun t => t.marks) = some [.illegalCommand] ∧
      seen (takeCommand ⟨0x05#8, 0, []⟩ (inPhase .destroyed bare)) (fun t => t.marks) = some [.destroyed] := by decide

/-- V-E5: a command in the middle of the SHIFT of V-S1. -/
theorem test_concurrent_command :
    seen (step (hosted atFirstEdge [.present ⟨0x03#8, 0, []⟩])) (fun t => (t.seq.phase, t.marks, t.line, t.chain.out)) =
      some (.faulted, [.concurrentCommand], allLines .unknown, unknowns 8) := by decide

/-- V-E6: nothing is taken in FAULTED. -/
theorem test_faulted_takes_nothing :
    seen (step (hosted (inPhase .faulted bare) [.present ⟨0x00#8, 1, []⟩])) (fun t => t.hist) = none := by decide

/-- P5 command 2, placed where the host's check places it: CONSTRUCT with a zero count is refused at reset. -/
theorem test_fetch_word :
    seen (step (State.reset.withFetchWord 8 0x00)) (fun t => (t.seq.phase, t.marks, t.host)) =
      some (.unconfigured, [.badChipCount], []) := by decide

/-! ### Witnesses: states and operands that meet the hypotheses of each obligation -/

/-- A step that answers a next state, for a state whose outcome the kernel can see. -/
theorem exists_of_seen {α : Type} {o : Host.Outcome State Fault Refusal} {f : State → α} {v : α}
    (h : seen o f = some v) : ∃ t, o = .next t ∧ f t = v := by
  cases o with
  | next t => exact ⟨t, rfl, by simpa [seen] using h⟩
  | fault _ => simp [seen] at h
  | refused _ => simp [seen] at h

theorem ready_of {s : State} {c : Cfg} (idle : s.seq.phase = .idle) (configured : s.cfg = some c)
    (infallible : s.platform.pinWritesFallible = false) (blocks : hostBlocks s.host = true) : s.Ready c :=
  ⟨idle, configured, .inl infallible, blocks⟩

/-- The invariant of a state, from its parts that `decide` sees. -/
theorem inv_of_parts (s : State) (c : Cfg) (hc : s.cfg = some c) (hn : badChipCount s.platform c.chips = false)
    (hp : s.seq.phase = .idle ∨ s.seq.phase = .busy) (habs : ∀ r, s.hasLine r = false → s.line.get r = .unknown)
    (hst : s.chain.sr.length = s.stages ∧ s.chain.out.length = s.stages)
    (hrest : s.seq.phase ≠ .busy → s.seq.ops = [] ∧ s.seq.k = 0 ∧ s.seq.cmd = none)
    (hbusy : s.seq.phase = .busy → s.InProgress)
    (hheld : ∀ r v, lastWritten r (s.seq.ops.take s.seq.k) = some v → s.line.get r = levelOf v)
    (hm : s.marks = []) (hr : s.seq.resp = lastResponse s.hist) : s.Inv where
  chipCount := fun d hd => by rw [hc] at hd; cases hd; exact hn
  configured := fun _ h => by rw [hc] at h; cases h
  fresh := fun h => by rcases hp with p | p <;> rw [p] at h <;> cases h
  absentLine := habs
  stages := hst
  resting := hrest
  inProgress := hbusy
  linesHeld := hheld
  marks := by rw [hm]; exact List.Pairwise.nil
  faultMarked :=
    ⟨fun h => (by rcases hp with p | p <;> rw [p] at h <;> cases h), fun h => (by rw [hm] at h; cases h)⟩
  response := hr

theorem inv_atFirstEdge : atFirstEdge.Inv :=
  inv_of_parts _ ⟨1, false, false⟩ rfl (by decide) (.inr rfl) (by intro r; cases r <;> decide) (by decide) (by decide)
    (fun _ => ⟨rfl, by decide, by decide, by decide⟩) (by intro r v; cases r <;> cases v <;> decide) rfl rfl

theorem inv_atLatchEdge : atLatchEdge.Inv :=
  inv_of_parts _ ⟨1, false, false⟩ rfl (by decide) (.inr rfl) (by intro r; cases r <;> decide) (by decide) (by decide)
    (fun _ => ⟨rfl, by decide, by decide, by decide⟩) (by intro r v; cases r <;> cases v <;> decide) rfl rfl

theorem inv_bare : bare.Inv :=
  inv_of_parts _ ⟨1, false, false⟩ rfl (by decide) (.inl rfl) (by intro r; cases r <;> decide) (by decide) (by decide)
    (fun h => absurd h (by decide)) (by intro r v; cases r <;> cases v <;> decide) rfl rfl

theorem inv_hosted (s : State) (h : List HostAction) (i : s.Inv) : (hosted s h).Inv :=
  ⟨i.chipCount, i.configured, i.fresh, i.absentLine, i.stages, i.resting, i.inProgress, i.linesHeld, i.marks,
    i.faultMarked, i.response⟩

theorem inv_reset : State.reset.Inv where
  chipCount := fun c h => by cases h
  configured := fun h => by rcases h with h | h | h <;> cases h
  fresh := fun _ => ⟨rfl, fun r => by cases r <;> rfl⟩
  absentLine := fun r _ => by cases r <;> rfl
  stages := ⟨rfl, rfl⟩
  resting := fun _ => ⟨rfl, rfl, rfl⟩
  inProgress := fun h => by cases h
  linesHeld := fun r v h => by cases h
  marks := List.Pairwise.nil
  faultMarked := ⟨fun h => (by cases h), fun h => by cases h⟩
  response := rfl

/-- A CONSTRUCT waiting at reset. -/
def constructing : State := hosted State.reset [.present (encode (.construct true true 1))]

theorem witness_StepKeepsInvariant :
    (∃ t, atFirstEdge.Inv ∧ step atFirstEdge = .next t ∧ t.seq.k = 6) ∧
      ∃ t, constructing.Inv ∧ step constructing = .next t ∧ t.seq.phase = .idle := by
  obtain ⟨t, h, hk⟩ := exists_of_seen (show seen (step atFirstEdge) (fun t => t.seq.k) = some 6 by decide)
  obtain ⟨u, g, gk⟩ := exists_of_seen (show seen (step constructing) (fun t => t.seq.phase) = some .idle by decide)
  exact ⟨⟨t, inv_atFirstEdge, h, hk⟩, u, inv_hosted _ _ inv_reset, g, gk⟩

theorem witness_VisibleOutputsFollowOE :
    (∀ oe, (withOE oe).cfg = some ⟨1, true, false⟩ ∧ (withOE oe).chain.out[0]? = some .one ∧
        (withOE oe).chain.out[7]? = some .zero) ∧
      (withOE .zero).oeEff = .zero ∧ (withOE .one).oeEff = .one ∧ (withOE .unknown).oeEff = .unknown := by
  exact ⟨fun oe => ⟨rfl, rfl, rfl⟩, by decide⟩

theorem witness_HistoryAndMarksOnlyGrow :
    ∃ t, step (hosted atFirstEdge [.present (encode .enableOutput)]) = .next t ∧ t.marks = [.concurrentCommand] :=
  exists_of_seen (by decide)

theorem witness_ConfigurationIsWrittenOnce :
    (∃ t, constructing.Inv ∧ step constructing = .next t ∧ t.cfg ≠ constructing.cfg) ∧
      ∃ t, atFirstEdge.Inv ∧ step atFirstEdge = .next t ∧ atFirstEdge.cfg = some ⟨1, false, false⟩ := by
  obtain ⟨t, h, hk⟩ := exists_of_seen
    (show seen (step constructing) (fun t => t.cfg) = some (some ⟨1, true, true⟩) by decide)
  obtain ⟨u, g, _⟩ := exists_of_seen (show seen (step atFirstEdge) (fun t => t.seq.k) = some 6 by decide)
  exact ⟨⟨t, inv_hosted _ _ inv_reset, h, by rw [hk]; decide⟩, u, inv_atFirstEdge, g, rfl⟩

theorem witness_ControllerIsBlindToChain :
    (∃ t, step atFirstEdge = .next t ∧ t.seq.k = 6) ∧ step (inPhase .faulted bare) = .fault .controllerFaulted :=
  ⟨exists_of_seen (by decide), rfl⟩

theorem witness_OneResponsePerCommand :
    commandCount atLatchEdge.hist = responseCount atLatchEdge.hist + atLatchEdge.unanswered ∧
      ∃ t, step atLatchEdge = .next t ∧ responseCount t.hist = 1 :=
  ⟨by decide, exists_of_seen (by decide)⟩

/-- A line moves by a write, by a read of an unknown level, and by the fault. -/
theorem witness_LinesKeepTheirLevel :
    (∃ t, step atFirstEdge = .next t ∧ t.line.get .clock = .one) ∧
      (∃ t, step (reading .enableOutput .unknown) = .next t ∧ (t.line.get .oe ≠ .unknown)) ∧
      ∃ t, step (hosted atFirstEdge [.present (encode .enableOutput)]) = .next t ∧ t.line.get .data = .unknown := by
  refine ⟨exists_of_seen (by decide), ?_, exists_of_seen (by decide)⟩
  obtain ⟨v, d, h, -⟩ := pinRead_cases .oe (reading .enableOutput .unknown)
  refine ⟨microStep (reading .enableOutput .unknown), rfl, ?_⟩
  show ((performRead .oe (reading .enableOutput .unknown)).line.get .oe ≠ .unknown)
  unfold performRead
  rw [h]
  cases v
  · exact fun e => Level.noConfusion (show Level.zero = .unknown from e)
  · exact fun e => Level.noConfusion (show Level.one = .unknown from e)

theorem witness_ReadReturnsTheLevelAndFixesIt :
    (withOE .one).line.get .oe ≠ .unknown ∧ (withOE .unknown).line.get .oe = .unknown ∧ Role.mr ≠ Role.oe := by decide

/-- A rising edge, a possible one by CLOCK, a possible one by LATCH, and none. -/
theorem witness_ClockEdgeShiftsOneStage :
    let up := driven .zero .zero .one zeros zeros
    let low := { up with platform := { up.platform with shiftWhileLatchHigh := false } }
    (up.mrEff = .one ∧ up.line.clock = .zero ∧ up.platform.shiftWhileLatchHigh = true ∧ 0 < up.chain.sr.length) ∧
      (low.mrEff = .one ∧ low.line.clock = .zero ∧ low.line.latch = .zero ∧
        low.platform.shiftWhileLatchHigh = false) ∧
      (driven .zero .unknown .one zeros zeros).line.clock = .unknown ∧
      (driven .unknown .zero .one zeros zeros).line.latch = .unknown ∧
      (driven .one .one .one zeros zeros).line.clock = .one ∧ (driven .one .one .one zeros zeros).line.latch = .one := by
  decide

theorem witness_LowResetClearsTheStagesOnly :
    (drive .mr false (withMR .one)).mrEff = .zero ∧ (drive .data true (withMR .unknown)).mrEff = .unknown ∧
      (withMR .one).line.get .mr ≠ levelOf false ∧ (withMR .unknown).line.get .data ≠ levelOf true ∧
      (withMR .one).line.get .mr = levelOf true ∧ (drive .mr false (withMR .one)).chain.sr.length = 8 := by decide

theorem witness_OnlyTheLatchEdgeCopies :
    (driven .zero .zero .zero pattern zeros).line.latch = .zero ∧
      (driven .unknown .zero .zero pattern zeros).line.latch = .unknown ∧
      (driven .one .zero .zero pattern zeros).line.latch = .one := by decide

/-- A CLOCK edge with MR tied low, and a CONSTRUCT on that platform. -/
theorem witness_MasterResetHoldsTheStages :
    ((tiedLow atFirstEdge).StagesHeldLow ∧ (tiedLow atFirstEdge).mrEff = .zero ∧
        ∃ t, step (tiedLow atFirstEdge) = .next t ∧ t.chain.sr = List.replicate 8 .zero) ∧
      (tiedLow constructing).StagesHeldLow ∧
        ∃ t, step (tiedLow constructing) = .next t ∧ t.chain.sr = unknowns 8 := by
  have stages : (tiedLow atFirstEdge).StagesHeldLow := by unfold State.StagesHeldLow; decide
  have fresh : (tiedLow constructing).StagesHeldLow := by unfold State.StagesHeldLow; decide
  exact ⟨⟨stages, rfl, exists_of_seen (f := fun t => t.chain.sr) (by decide)⟩, fresh,
    exists_of_seen (f := fun t => t.chain.sr) (by decide)⟩

/-- MR high, unknown (a line), and low (a tie), the last with a level held and without one. -/
theorem witness_WritesWithoutAnEdgeLeaveTheChain :
    (∀ r : Role, (drive r true (driven .one .one .one pattern zeros)).mrEff = .one) ∧
      (driven .one .one .one pattern zeros).line.get .clock = levelOf true ∧
      (drive .mr true (withMR .zero)).mrEff = .one ∧
      ((withMR .unknown).StagesHeldLow ∧ (withMR .unknown).mrEff = .unknown) ∧
      ((tiedLow atFirstEdge).StagesHeldLow ∧ (tiedLow atFirstEdge).mrEff = .zero ∧
        (tiedLow atFirstEdge).line.get .clock = levelOf false ∧ (tiedLow atFirstEdge).line.get .data ≠ levelOf true ∧
        (tiedLow atFirstEdge).chain.sr[0]? = some .unknown) := by
  refine ⟨fun r => by cases r <;> decide, by decide, by decide, ?_, ?_⟩ <;> unfold State.StagesHeldLow <;> decide

/-- The latches move at the LATCH write, at CONSTRUCT, and at the fault. -/
theorem witness_LatchesChangeAtNoOtherTime :
    (∃ t, atLatchEdge.Inv ∧ step atLatchEdge = .next t ∧ t.chain.out = known pattern) ∧
      (∃ t, constructing.Inv ∧ step constructing = .next t ∧ t.chain.out = unknowns 8) ∧
      ∃ s t, State.Inv s ∧ step s = .next t ∧ s.chain.out = known pattern ∧ t.chain.out = unknowns 8 := by
  obtain ⟨t, h, hk⟩ := exists_of_seen (show seen (step atLatchEdge) (fun t => t.chain.out) = some (known pattern) by decide)
  obtain ⟨u, g, gk⟩ := exists_of_seen (show seen (step constructing) (fun t => t.chain.out) = some (unknowns 8) by decide)
  refine ⟨⟨t, inv_atLatchEdge, h, hk⟩, ⟨u, inv_hosted _ _ inv_reset, g, gk⟩, ?_⟩
  let w := hosted { atFirstEdge with chain := ⟨unknowns 8, known pattern⟩ } [.present (encode .enableOutput)]
  obtain ⟨x, e, ek⟩ := exists_of_seen (show seen (step w) (fun t => t.chain.out) = some (unknowns 8) by decide)
  have i := inv_atFirstEdge
  exact ⟨w, x, ⟨i.chipCount, i.configured, i.fresh, i.absentLine, by decide, i.resting, i.inProgress, i.linesHeld,
    i.marks, i.faultMarked, i.response⟩, e, rfl, ek⟩

theorem witness_NoCommandMakesAnUnknownEdge :
    (atFirstEdge.Inv ∧ atFirstEdge.seq.phase = .busy ∧
        atFirstEdge.seq.ops[atFirstEdge.seq.k]? = some (.write .clock true)) ∧
      atLatchEdge.Inv ∧ atLatchEdge.seq.phase = .busy ∧
        atLatchEdge.seq.ops[atLatchEdge.seq.k]? = some (.write .latch true) :=
  ⟨⟨inv_atFirstEdge, rfl, by decide⟩, inv_atLatchEdge, rfl, by decide⟩

theorem witness_ShiftWhileLatchHighIsNeverSeen :
    ∃ t, atFirstEdge.Inv ∧ step atFirstEdge = .next t ∧ t.chain.sr = .zero :: unknowns 7 := by
  obtain ⟨t, h, hk⟩ := exists_of_seen
    (show seen (step atFirstEdge) (fun t => t.chain.sr) = some (.zero :: unknowns 7) by decide)
  exact ⟨t, inv_atFirstEdge, h, hk⟩

theorem witness_DecodeInvertsEncode : decode ⟨0x0C#8, 0, pattern⟩ = .ok (.shift true pattern) := by decide

theorem witness_DecoderFollowsTheOpcodeMap :
    ∃ row ∈ opcodeMap, row.mnemonic = "SHIFT" ∧ row.selects 0x0C#8 = true ∧ row.format.admits ⟨0x0C#8, 0, pattern⟩ = true := by
  decide

/-- One record per clause of R77, in UNCONFIGURED and in IDLE. -/
theorem witness_ReservedEncodingsAreRefused :
    (Reserved ⟨0x05#8, 0, []⟩ ∧ Reserved ⟨0x07#8, 0, []⟩ ∧ Reserved ⟨0x40#8, 1, []⟩ ∧ Reserved ⟨0x09#8, 0, []⟩ ∧
      Reserved ⟨0x11#8, 0, []⟩ ∧ Reserved ⟨0x01#8, 1, []⟩ ∧ Reserved ⟨0x00#8, 1, [true]⟩) ∧
      State.reset.seq.phase = .unconfigured ∧ bare.seq.phase = .idle := by
  refine ⟨⟨?_, ?_, ?_, ?_, ?_, ?_, ?_⟩, rfl, rfl⟩ <;> (unfold Reserved; decide)

theorem witness_StepRunsTheDecodedCommand :
    (decode (encode .enableOutput) = .ok .enableOutput ∧
      (hosted (withOE .one) [.present (encode .enableOutput)]).host = .present (encode .enableOutput) :: []) ∧
      ((hosted (withOE .one) [.call (encode .enableOutput)]).host = .call (encode .enableOutput) :: [] ∧
        (withOE .one).seq.phase ≠ .busy) ∧
      decode (recordOfTableWord 8 0x01) = .ok .enableOutput ∧ decodeTableWord 8 0x01 = some .enableOutput := by decide

/-- A write inside the list, and the last one. -/
theorem witness_BusyStepPerformsTheNextWrite :
    (atFirstEdge.seq.phase = .busy ∧ hostBlocks atFirstEdge.host = true ∧
        atFirstEdge.platform.pinWritesFallible = false ∧
        atFirstEdge.seq.ops[atFirstEdge.seq.k]? = some (.write .clock true) ∧
        atFirstEdge.seq.k + 1 < atFirstEdge.seq.ops.length) ∧
      atLatchEdge.seq.ops[atLatchEdge.seq.k]? = some (.write .latch true) ∧
        atLatchEdge.seq.k + 1 = atLatchEdge.seq.ops.length := by decide

/-- Nothing left; only a release and a pass left; and a command left is no end of the run. -/
theorem witness_RestingControllerHolds :
    (bare.RunOver ∧ bare.host = []) ∧ (hosted bare [.release, .pass]).RunOver ∧
      ¬(hosted bare [.pass, .call (encode .enableOutput)]).RunOver := by
  refine ⟨⟨⟨.inl rfl, by decide⟩, rfl⟩, ⟨.inl rfl, by decide⟩, fun h => absurd h.2 (by decide)⟩

theorem witness_EveryCommandHasAnOutcome :
    atFirstEdge.seq.phase ≠ .faulted ∧ (inPhase .destroyed bare).seq.phase ≠ .faulted ∧
      (inPhase .faulted bare).seq.phase = .faulted := by decide

/-- The bounds of the chip count: 1, and `MAX_CHIPS` itself. -/
theorem witness_ConstructConfigures :
    (State.reset.seq.phase = .unconfigured ∧ ∀ most, State.reset.platform.maxChips = some most → 1 ≤ most) ∧
      let s := { State.reset with platform := { State.reset.platform with maxChips := some 4 } }
      s.seq.phase = .unconfigured ∧ 1 ≤ 4 ∧ ∀ most, s.platform.maxChips = some most → 4 ≤ most := by
  refine ⟨⟨rfl, fun most h => by cases h⟩, rfl, by decide, fun most h => by cases h; decide⟩

theorem witness_SecondConstructIsRefused :
    bare.seq.phase = .idle ∧ (inPhase .destroyed bare).seq.phase = .destroyed ∧ atFirstEdge.seq.phase = .busy := by decide

theorem witness_BadChipCountIsRefused :
    State.reset.seq.phase = .unconfigured ∧
      ∃ most, ({ State.reset.platform with maxChips := some 4 } : Platform).maxChips = some most ∧ most < 5 :=
  ⟨rfl, 4, rfl, by decide⟩

/-- OE known low, known high, and unknown. -/
theorem witness_EnableOutputRuns :
    (withOE .zero).Ready ⟨1, true, false⟩ ∧ (withOE .one).Ready ⟨1, true, false⟩ ∧
      (withOE .unknown).Ready ⟨1, true, false⟩ :=
  ⟨ready_of rfl rfl rfl rfl, ready_of rfl rfl rfl rfl, ready_of rfl rfl rfl rfl⟩

theorem witness_DisableOutputRuns :
    (withOE .zero).Ready ⟨1, true, false⟩ ∧ (withOE .zero).oeReads = false ∧
      (withOE .one).Ready ⟨1, true, false⟩ ∧ (withOE .one).oeReads = true :=
  ⟨ready_of rfl rfl rfl rfl, rfl, ready_of rfl rfl rfl rfl, rfl⟩

theorem witness_IsOutputEnabledRuns :
    (withOE .one).Ready ⟨1, true, false⟩ ∧ (withOE .one).line.oe ≠ .unknown ∧
      (withOE .unknown).Ready ⟨1, true, false⟩ :=
  ⟨ready_of rfl rfl rfl rfl, by decide, ready_of rfl rfl rfl rfl⟩

theorem witness_UnmanagedOutputEnableIsAnError : bare.seq.phase = .idle ∧ bare.hasOE = false := by decide

theorem witness_OutputControlRoundTrips :
    (withOE .one).Ready ⟨1, true, false⟩ ∧ (withOE .zero).Ready ⟨1, true, false⟩ ∧
      (withOE .unknown).Ready ⟨1, true, false⟩ :=
  ⟨ready_of rfl rfl rfl rfl, ready_of rfl rfl rfl rfl, ready_of rfl rfl rfl rfl⟩

theorem witness_OutputControlIsIdempotent :
    (hosted (withOE .one) [.call (encode .enableOutput), .call (encode .enableOutput)]).Ready ⟨1, true, false⟩ ∧
      (hosted (withOE .zero) [.call (encode .disableOutput), .call (encode .disableOutput)]).Ready ⟨1, true, false⟩ ∧
      hostBlocks [] = true :=
  ⟨ready_of rfl rfl rfl rfl, ready_of rfl rfl rfl rfl, rfl⟩

/-- One bit too many, a reset without MR, and a valid array. -/
theorem witness_ShiftIsValidatedFirst :
    bare.seq.phase = .idle ∧ bare.cfg = some ⟨1, false, false⟩ ∧ (true :: pattern).length ≠ 1 * 8 ∧
      pattern.length = 1 * 8 ∧ (withMR .one).cfg = some ⟨1, false, true⟩ := by decide

/-- The first and the last pass of the loop. -/
theorem witness_ShiftOpsAreInOrder :
    pattern[pattern.length - 1 - 0]? = some false ∧ pattern[pattern.length - 1 - 7]? = some true ∧ 7 < pattern.length := by
  decide

/-- MR high by the pulse, by the line, and by the tie; OE low and high. -/
theorem witness_ShiftDeliversThePattern :
    ((withMR .unknown).Ready ⟨1, false, true⟩ ∧ (withMR .unknown).MrHigh ⟨1, false, true⟩ true) ∧
      ((withMR .one).Ready ⟨1, false, true⟩ ∧ (withMR .one).MrHigh ⟨1, false, true⟩ false) ∧
      (bare.Ready ⟨1, false, false⟩ ∧ bare.MrHigh ⟨1, false, false⟩ false) ∧
      ((withOE .one).Ready ⟨1, true, false⟩ ∧ (withOE .one).MrHigh ⟨1, true, false⟩ false ∧ (withOE .one).oeEff = .one) ∧
      bare.chain.sr.length = 1 * 8 ∧ pattern.length = 1 * 8 ∧ bare.oeEff = .zero :=
  ⟨⟨ready_of rfl rfl rfl rfl, .inl rfl⟩, ⟨ready_of rfl rfl rfl rfl, .inr (.inl ⟨rfl, rfl⟩)⟩,
    ⟨ready_of rfl rfl rfl rfl, .inr (.inr ⟨rfl, rfl⟩)⟩,
    ⟨ready_of rfl rfl rfl rfl, .inr (.inr ⟨rfl, rfl⟩), rfl⟩, by decide⟩

/-- V-S12's and V-S13's premises. -/
theorem witness_ShiftWithoutMasterResetHigh :
    let tied := { bare with platform := { bare.platform with mrTied := false } }
    (tied.Ready ⟨1, false, false⟩ ∧ tied.mrEff = .zero ∧ tied.chain.sr.length = 1 * 8) ∧
      (withMR .unknown).Ready ⟨1, false, true⟩ ∧ (withMR .unknown).mrEff = .unknown ∧ pattern.length = 1 * 8 :=
  ⟨⟨ready_of rfl rfl rfl rfl, rfl, rfl⟩, ready_of rfl rfl rfl rfl, rfl, rfl⟩

theorem witness_ResetFlagChangesNoOutput :
    (withMR .one).Ready ⟨1, false, true⟩ ∧ (withMR .one).chain.sr.length = 1 * 8 ∧ pattern.length = 1 * 8 ∧
      (withMR .one).line.mr = .one :=
  ⟨ready_of rfl rfl rfl rfl, rfl, rfl, rfl⟩

/-- The first and the last micro-op, and the one before which LATCH goes low, without and with reset. -/
theorem witness_OutputsHoldDuringAShift :
    (bare.Ready ⟨1, false, false⟩ ∧ 0 < 4 * (1 * 8) + 5 ∧ 36 < 4 * (1 * 8) + 5 ∧ 3 ≤ 3) ∧
      (withMR .one).Ready ⟨1, false, true⟩ ∧ 38 < 4 * (1 * 8) + 7 ∧ pattern.length = 1 * 8 :=
  ⟨⟨ready_of rfl rfl rfl rfl, by decide⟩, ready_of rfl rfl rfl rfl, by decide⟩

theorem witness_SecondShiftReplacesTheFirst :
    let s := hosted (withMR .unknown) [.call (encode (.shift true pattern)), .call (encode (.shift false zeros))]
    s.Ready ⟨1, false, true⟩ ∧ s.MrHigh ⟨1, false, true⟩ true ∧ s.chain.sr.length = 1 * 8 ∧ zeros.length = 1 * 8 ∧
      s.host = .call (encode (.shift true pattern)) :: .call (encode (.shift false zeros)) :: [] :=
  ⟨ready_of rfl rfl rfl rfl, .inl rfl, rfl, rfl, rfl⟩

theorem witness_RefusalsChangeNothingElse :
    RefusedAs (inPhase .destroyed bare) (encode .enableOutput) .destroyed ∧
      RefusedAs bare ⟨0x05#8, 0, []⟩ .illegalCommand ∧
      RefusedAs State.reset (encode .enableOutput) .notConfigured ∧
      RefusedAs bare (encode (.construct false false 1)) .reconfigure ∧
      RefusedAs State.reset (encode (.construct false false 0)) .badChipCount :=
  ⟨.destroyed rfl, .illegal (.inr rfl) (.inl rfl), .notConfigured rfl .enableOutput (by decide) rfl,
    .reconfigure rfl false false 1 (by decide), .badChipCount rfl false false 0 (by decide) (.inl rfl)⟩

theorem witness_ConcurrentCommandIsTheFault :
    atFirstEdge.seq.phase = .busy ∧ (inPhase .faulted bare).seq.phase = .faulted := by decide

/-- A first failure at each of the checks 2 to 7, and none. -/
theorem witness_ChecksReportTheFirstFailure :
    firstFailing atFirstEdge (encode .enableOutput) = some .concurrentCommand ∧
      firstFailing (inPhase .destroyed bare) ⟨0x05#8, 0, []⟩ = some .destroyed ∧
      firstFailing State.reset ⟨0x05#8, 0, []⟩ = some .illegalCommand ∧
      firstFailing State.reset (encode .enableOutput) = some .notConfigured ∧
      firstFailing bare (encode (.construct false false 0)) = some .reconfigure ∧
      firstFailing State.reset (encode (.construct false false 0)) = some .badChipCount ∧
      firstFailing bare (encode (.shift true (true :: pattern))) = some .invalidLength ∧
      firstFailing bare (encode (.shift true pattern)) = some .unmanagedPin ∧
      firstFailing bare (encode (.shift false pattern)) = none := by decide

/-- A write where writes may fail; and, for the last clause, a step that keeps an earlier `PinIoError`. -/
theorem witness_FailedWriteIsPinIoError :
    let s := { atFirstEdge with platform := { atFirstEdge.platform with pinWritesFallible := true } }
    (s.seq.phase = .busy ∧ hostBlocks s.host = true ∧ s.platform.pinWritesFallible = true ∧
        s.seq.ops[s.seq.k]? = some (.write .clock true)) ∧
      ∃ t, step { bare with seq := { bare.seq with resp := some (.ioError .clock) } } = .next t ∧
        t.seq.resp = some (.ioError .clock) ∧ bare.platform.pinWritesFallible = false :=
  ⟨by decide, _, rfl, rfl, rfl⟩

theorem witness_UnmarkedRunHasNoRefusal :
    ∃ t, step atLatchEdge = .next t ∧ t.Unmarked ∧ Event.resp ⟨.ok, false, 0, 0, none⟩ ∈ t.hist := by
  obtain ⟨t, h, hk⟩ := exists_of_seen
    (show seen (step atLatchEdge) (fun t => (t.marks, t.seq.phase, t.hist.getLast?)) =
      some ([], .idle, some (.resp ⟨.ok, false, 0, 0, none⟩)) by decide)
  simp only [Prod.mk.injEq] at hk
  exact ⟨t, h, ⟨hk.1, by rw [hk.2.1]; decide⟩, List.mem_of_getLast? hk.2.2⟩

theorem witness_EveryCommandEnds :
    (atFirstEdge.Inv ∧ atFirstEdge.seq.phase = .busy ∧ hostBlocks atFirstEdge.host = true) ∧ atLatchEdge.Inv ∧
      atLatchEdge.seq.ops.length - atLatchEdge.seq.k = 1 :=
  ⟨⟨inv_atFirstEdge, rfl, rfl⟩, inv_atLatchEdge, by decide⟩

theorem witness_EndOfLifeLeavesTheLines :
    (∀ s : State, (hosted s [.release]).host = .release :: []) ∧ bare.seq.phase = .idle ∧
      State.reset.seq.phase = .unconfigured ∧ (inPhase .destroyed bare).seq.phase = .destroyed ∧
      atFirstEdge.seq.phase = .busy :=
  ⟨fun _ => rfl, by decide⟩

end Sys2Proof.Machine.Tests
end

section
/-! PROOF. What a step does, as one relation with a constructor for each way: the inversion lemma that the step
lemmas below split on. -/

namespace Sys2Proof.Machine

/-! ### One step as one effect -/

@[simp] theorem State.issue_hasMR (c : Command) (s : State) : (s.issue c).hasMR = s.hasMR := rfl
@[simp] theorem State.withSeq_hasOE (s : State) (q : Sequencer) : (s.withSeq q).hasOE = s.hasOE := rfl

/-- `PinRead(r)` inside a command in progress, before the advance: the line is at the level read, the event is
recorded, and `SEQ.OPS` has what the read adds (10_state.md R31, 20_memory.md R52). -/
def State.afterRead (r : Role) (v : Bit) (d : Nat) (s : State) : State :=
  { s with
    line := s.line.set r (levelOf v)
    draws := d
    hist := s.hist ++ [.read r v]
    seq := { s.seq with ops := s.seq.ops ++ followUp s.seq.cmd v } }

section
variable (r : Role) (v : Bit) (d : Nat) (s : State)

@[simp] theorem State.afterRead_cfg : (s.afterRead r v d).cfg = s.cfg := rfl
@[simp] theorem State.afterRead_line : (s.afterRead r v d).line = s.line.set r (levelOf v) := rfl
@[simp] theorem State.afterRead_seq :
    (s.afterRead r v d).seq = { s.seq with ops := s.seq.ops ++ followUp s.seq.cmd v } := rfl
@[simp] theorem State.afterRead_chain : (s.afterRead r v d).chain = s.chain := rfl
@[simp] theorem State.afterRead_hist : (s.afterRead r v d).hist = s.hist ++ [.read r v] := rfl
@[simp] theorem State.afterRead_marks : (s.afterRead r v d).marks = s.marks := rfl
@[simp] theorem State.afterRead_hasOE : (s.afterRead r v d).hasOE = s.hasOE := rfl
@[simp] theorem State.afterRead_platform : (s.afterRead r v d).platform = s.platform := rfl

end

/-- What one step does to a state `s` whose host list is already the one after the step: one constructor for each way,
with the guard under which it happens. -/
inductive Effect (s : State) : State → Prop where
  /-- Nothing happens (60_exceptions.md R188). -/
  | hold (hb : s.seq.phase ≠ .busy) (hf : s.seq.phase ≠ .faulted) : Effect s s
  /-- End of life (70_reset_and_hazards.md R205). -/
  | release (hb : s.seq.phase ≠ .busy) (hf : s.seq.phase ≠ .faulted) : Effect s (endOfLife s)
  /-- A record presented while BUSY (60_exceptions.md R165). -/
  | fault (c : Command) (hp : s.seq.phase = .busy) : Effect s (concurrentCommand (s.issue c))
  /-- A refusal (R164). -/
  | refusal (c : Command) (cause : Cause) (hc : cause ≠ .concurrentCommand) (hb : s.seq.phase ≠ .busy)
      (hf : s.seq.phase ≠ .faulted) : Effect s (refuse cause (s.issue c))
  /-- CONSTRUCT (40_construct.md R100). -/
  | construct (o m : Bit) (n : Nat) (hp : s.seq.phase = .unconfigured) (hn : badChipCount s.platform n = false) :
      Effect s (complete .success (configure o m n (s.issue (encode (.construct o m n)))))
  /-- A command that fails its validation (60_exceptions.md R161 to R163). -/
  | error (c : Command) (e : Response) (hp : s.seq.phase = .idle)
      (he : e.status = .invalidLength ∨ e.status = .unmanagedPin) : Effect s (complete e (s.issue c))
  /-- A validated command enters BUSY (42_shift.md R130, 10_state.md R31). -/
  | accept (i : Instr) (ops : List MicroOp) (hp : s.seq.phase = .idle) (hi : (enterBusy i ops s).InProgress) :
      Effect s (enterBusy i ops (s.issue (encode i)))
  /-- A write micro-op that takes place (20_memory.md R51). -/
  | write (r : Role) (v : Bit) (d : Nat) (hp : s.seq.phase = .busy) (hop : s.seq.ops[s.seq.k]? = some (.write r v)) :
      Effect s (advance .success ((drive r v s).withDraws d))
  /-- A write micro-op that fails (60_exceptions.md R171). -/
  | lose (r : Role) (v : Bit) (d : Nat) (hp : s.seq.phase = .busy) (hop : s.seq.ops[s.seq.k]? = some (.write r v))
      (hf : s.platform.pinWritesFallible = true) :
      Effect s (complete (.ioError r) ((loseWrite r s).withDraws d))
  /-- A read micro-op (20_memory.md R52). -/
  | read (r : Role) (v : Bit) (d : Nat) (hp : s.seq.phase = .busy) (hop : s.seq.ops[s.seq.k]? = some (.read r))
      (hl : s.line.get r = .unknown ∨ s.line.get r = levelOf v) :
      Effect s (advance (readResponse s.seq.cmd v) (s.afterRead r v d))
  /-- An index past the end of the list (log entry 14). -/
  | pastEnd (hp : s.seq.phase = .busy) (hop : s.seq.ops[s.seq.k]? = none) : Effect s (complete .success s)

/-- A micro-op is one of the last four effects. -/
theorem microStep_effect (s : State) (hp : s.seq.phase = .busy) : Effect s (microStep s) := by
  rcases microStep_cases s with
    ⟨r, v, d, hop, h⟩ | ⟨r, v, d, hop, hf, h⟩ | ⟨r, v, d, hop, hl, h⟩ | ⟨hop, h⟩ <;> rw [h]
  · exact drive_withDraws r v s d ▸ Effect.write r v d hp hop
  · exact .lose r v d hp hop hf
  · exact .read r v d hp hop (hl.imp_right And.left)
  · exact .pastEnd hp hop

/-- An OE command in IDLE ends with the error or enters BUSY with its read. -/
theorem beginOE_effect (i : Instr) (s : State) (hp : s.seq.phase = .idle)
    (hi : s.hasOE = true → (enterBusy i [.read .oe] s).InProgress) : Effect s (beginOE i (s.issue (encode i))) := by
  unfold beginOE
  split
  next h => exact .accept i _ hp (hi h)
  next => exact .error _ _ hp (.inr rfl)

/-- A SHIFT in IDLE ends with one of its two errors or enters BUSY with `ShiftOps`. -/
theorem beginShift_effect (reset : Bit) (bits : List Bit) (s : State) (hp : s.seq.phase = .idle) :
    Effect s (beginShift reset bits (s.issue (encode (.shift reset bits)))) := by
  unfold beginShift
  split
  next => exact .error _ _ hp (.inl rfl)
  next hlen =>
    split
    next => exact .error _ _ hp (.inr rfl)
    next hmr =>
      have hmanaged : reset = true → s.hasMR = true := fun hr => by simpa [hr] using hmr
      exact .accept _ _ hp ⟨rfl, by simp [shiftOps], not_not.mp hlen, hmanaged⟩

/-- A CONSTRUCT in UNCONFIGURED is refused for its count, or configures. -/
theorem construct_effect (o m : Bit) (n : Nat) (s : State) (hp : s.seq.phase = .unconfigured) :
    Effect s (ownRule (.construct o m n) (s.issue (encode (.construct o m n)))) := by
  by_cases hn : badChipCount s.platform n = true
  · simpa [ownRule, hn] using Effect.refusal (s := s) (encode (.construct o m n)) .badChipCount (by decide)
      (by simp [hp]) (by simp [hp])
  · simpa [ownRule, hn] using Effect.construct o m n hp (by simpa using hn)

/-- A command that has passed its phase checks completes, is refused, or enters BUSY. -/
theorem ownRule_effect (i : Instr) (s : State)
    (hp : s.seq.phase = .unconfigured ∧ i.isConstruct = true ∨ s.seq.phase = .idle ∧ i.isConstruct = false) :
    Effect s (ownRule i (s.issue (encode i))) := by
  cases i with
  | construct o m n => exact construct_effect o m n s (by simpa [Instr.isConstruct] using hp)
  | enableOutput => exact beginOE_effect _ s (by simpa [Instr.isConstruct] using hp) fun h => ⟨h, .inl ⟨rfl, rfl⟩⟩
  | disableOutput => exact beginOE_effect _ s (by simpa [Instr.isConstruct] using hp) fun h => ⟨h, .inl ⟨rfl, rfl⟩⟩
  | isOutputEnabled => exact beginOE_effect _ s (by simpa [Instr.isConstruct] using hp) fun h => ⟨h, rfl, rfl⟩
  | shift reset bits => exact beginShift_effect reset bits s (by simpa [Instr.isConstruct] using hp)

/-- Taking a record is the fault, a refusal, or what the command does. -/
theorem takeCommand_effect {c : Command} {s t : State} (h : takeCommand c s = .next t) : Effect s t := by
  rcases takeCommand_next h with ⟨hp, rfl⟩ | ⟨cause, hc, hb, hf, rfl⟩ | ⟨-, i, -, he⟩
  · exact .fault c hp
  · exact .refusal c cause hc hb hf
  · rcases exec_next he with ⟨hp, rfl⟩ | ⟨cause, hc, hb, hf, rfl⟩ | ⟨hp, rfl⟩
    · exact .fault _ hp
    · exact .refusal _ cause hc hb hf
    · exact ownRule_effect i s hp

/-- Every step that answers next is one of the effects, on the state with the host's list moved on. -/
theorem step_effect {s t : State} (h : step s = .next t) : ∃ rest, Effect { s with host := rest } t := by
  rcases step_next h with ⟨hb, hf, rest, rfl⟩ | ⟨hp, rest, rfl⟩ | ⟨c, rest, hc⟩ | ⟨hb, hf, rest, rfl⟩
  · exact ⟨rest, .hold hb hf⟩
  · exact ⟨rest, microStep_effect _ hp⟩
  · exact ⟨rest, takeCommand_effect hc⟩
  · exact ⟨rest, .release hb hf⟩

/-! ### What an advance leaves alone -/

section
variable (ok : Response) (s : State)

@[simp] theorem advance_cfg : (advance ok s).cfg = s.cfg := by unfold advance; split <;> rfl
@[simp] theorem advance_line : (advance ok s).line = s.line := by unfold advance; split <;> rfl
@[simp] theorem advance_chain : (advance ok s).chain = s.chain := by unfold advance; split <;> rfl
@[simp] theorem advance_marks : (advance ok s).marks = s.marks := by unfold advance; split <;> rfl
@[simp] theorem advance_platform : (advance ok s).platform = s.platform := by unfold advance; split <;> rfl

/-- An advance records nothing, or the response. -/
theorem advance_hist_grows : ∃ more, (advance ok s).hist = s.hist ++ more := by
  rcases advance_cases ok s with ⟨-, h⟩ | ⟨-, h⟩ <;> rw [h]
  · exact ⟨[], (List.append_nil _).symm⟩
  · exact ⟨_, rfl⟩

end
end Sys2Proof.Machine
end

section
/-! PROOF. The invariant of the machine, kept by every effect (10_state.md). -/

namespace Sys2Proof.Machine

/-! ### Reading a history and a micro-op list that grow at the end -/

@[simp] theorem lastResponse_append (a b : List Event) :
    lastResponse (a ++ b) = (lastResponse b).or (lastResponse a) := by
  induction a with
  | nil => simp [lastResponse]
  | cons e a ih => cases e <;> simp [lastResponse, ih]

@[simp] theorem commandCount_append (a b : List Event) : commandCount (a ++ b) = commandCount a + commandCount b :=
  List.countP_append

@[simp] theorem responseCount_append (a b : List Event) :
    responseCount (a ++ b) = responseCount a + responseCount b :=
  List.countP_append

section
variable (h : List Event) (r : Role) (v : Bit) (c : Command) (x : Response)

@[simp] theorem commandCount_nil : commandCount [] = 0 := rfl
@[simp] theorem commandCount_cmd : commandCount (.cmd c :: h) = commandCount h + 1 := by simp [commandCount]
@[simp] theorem commandCount_resp : commandCount (.resp x :: h) = commandCount h := by simp [commandCount]
@[simp] theorem commandCount_write : commandCount (.write r v :: h) = commandCount h := by simp [commandCount]
@[simp] theorem commandCount_read : commandCount (.read r v :: h) = commandCount h := by simp [commandCount]
@[simp] theorem responseCount_nil : responseCount [] = 0 := rfl
@[simp] theorem responseCount_cmd : responseCount (.cmd c :: h) = responseCount h := by simp [responseCount]
@[simp] theorem responseCount_resp : responseCount (.resp x :: h) = responseCount h + 1 := by simp [responseCount]
@[simp] theorem responseCount_write : responseCount (.write r v :: h) = responseCount h := by simp [responseCount]
@[simp] theorem responseCount_read : responseCount (.read r v :: h) = responseCount h := by simp [responseCount]

end

@[simp] theorem lastWritten_append_write (r q : Role) (v : Bit) (ops : List MicroOp) :
    lastWritten r (ops ++ [.write q v]) = if q = r then some v else lastWritten r ops := by
  simp [lastWritten]

@[simp] theorem lastWritten_append_read (r q : Role) (ops : List MicroOp) :
    lastWritten r (ops ++ [.read q]) = lastWritten r ops := by
  simp [lastWritten]

/-! ### The command in progress and its next micro-op -/

/-- A SHIFT only writes; it writes MR in its reset pulse only, and OE never (42_shift.md R132). -/
theorem write_of_mem_shiftOps {op : MicroOp} {reset : Bit} {bits : List Bit} (h : op ∈ shiftOps bits reset) :
    ∃ r v, op = .write r v ∧ r ≠ .oe ∧ (r = .mr → reset = true) := by
  simp only [shiftOps, List.mem_append, List.mem_cons, List.not_mem_nil, or_false, List.mem_flatMap] at h
  rcases h with ((((h | rfl | rfl) | rfl) | ⟨b, -, h⟩) | rfl) | rfl
  · cases reset
    · simp [resetPulse] at h
    · simp only [resetPulse, if_true, List.mem_cons, List.not_mem_nil, or_false] at h
      rcases h with rfl | rfl <;> simp
  · simp
  · simp
  · simp
  · simp only [bitPass, List.mem_cons, List.not_mem_nil, or_false] at h
    rcases h with rfl | rfl | rfl | rfl <;> simp
  · simp
  · simp

theorem State.hasLine_oe {s : State} (h : s.hasOE = true) : s.hasLine .oe = true := by
  unfold State.hasOE at h; unfold State.hasLine
  cases hc : s.cfg <;> simp_all

theorem State.hasLine_mr {s : State} (h : s.hasMR = true) : s.hasLine .mr = true := by
  unfold State.hasMR at h; unfold State.hasLine
  cases hc : s.cfg <;> simp_all

/-- LATCH, CLOCK and DATA always exist (10_state.md R24, R26). -/
theorem State.hasLine_of_ne {s : State} {r : Role} (ho : r ≠ .oe) (hm : r ≠ .mr) : s.hasLine r = true := by
  cases r <;> simp_all [State.hasLine]

/-- The state a micro-op that is not the last leaves: `SEQ.K` moved by 1 (10_state.md R31). -/
def State.nextOp (s : State) : State := s.withSeq { s.seq with k := s.seq.k + 1 }

/-- The write of an OE command is its last micro-op (41_output_control.md R110, R111). -/
theorem oe_write_is_last {ops : List MicroOp} {k : Nat} {b : Bit}
    (h : ops = [.read .oe] ∧ k = 0 ∨ ops = [.read .oe, .write .oe b] ∧ k = 1) {r : Role} {v : Bit}
    (hop : ops[k]? = some (.write r v)) : r = .oe ∧ k + 1 = ops.length := by
  rcases h with ⟨rfl, rfl⟩ | ⟨rfl, rfl⟩ <;> simp at hop
  exact ⟨hop.1.symm, rfl⟩

/-- The read of an OE command is its first micro-op (R110 to R112). -/
theorem oe_read_is_first {ops : List MicroOp} {k : Nat} {b : Bit}
    (h : ops = [.read .oe] ∧ k = 0 ∨ ops = [.read .oe, .write .oe b] ∧ k = 1) {r : Role}
    (hop : ops[k]? = some (.read r)) : r = .oe ∧ ops = [.read .oe] ∧ k = 0 := by
  rcases h with ⟨rfl, rfl⟩ | ⟨rfl, rfl⟩ <;> simp at hop
  exact ⟨hop.symm, rfl, rfl⟩

/-- A write of the command in progress is to a line that exists, and unless it is the last micro-op the command stays
in progress. -/
theorem State.InProgress.next_write {s : State} (h : s.InProgress) {r : Role} {v : Bit}
    (hop : s.seq.ops[s.seq.k]? = some (.write r v)) :
    s.hasLine r = true ∧ (s.seq.k + 1 < s.seq.ops.length → s.nextOp.InProgress) := by
  unfold State.InProgress at h
  split at h
  next reset bits hcmd =>
    obtain ⟨hops, -, hlen, hmr⟩ := h
    obtain ⟨q, w, he, ho, hm⟩ := write_of_mem_shiftOps (hops ▸ List.mem_of_getElem? hop)
    cases he
    refine ⟨?_, fun hk => by simpa [State.InProgress, State.nextOp, hcmd] using ⟨hops, hk, hlen, hmr⟩⟩
    by_cases hr : r = .mr
    · exact hr ▸ State.hasLine_mr (hmr (hm hr))
    · exact State.hasLine_of_ne ho hr
  next =>
    obtain ⟨rfl, hk⟩ := oe_write_is_last h.2 hop
    exact ⟨State.hasLine_oe h.1, fun hlt => absurd hk hlt.ne⟩
  next =>
    obtain ⟨rfl, hk⟩ := oe_write_is_last h.2 hop
    exact ⟨State.hasLine_oe h.1, fun hlt => absurd hk hlt.ne⟩
  next =>
    obtain ⟨-, hops, hk⟩ := h
    simp [hops, hk] at hop
  next => exact h.elim
  next => exact h.elim

/-- A read of the command in progress is of an OE line that exists, and unless the command ends with it the write it
adds comes next. -/
theorem State.InProgress.next_read {s : State} (h : s.InProgress) {r : Role}
    (hop : s.seq.ops[s.seq.k]? = some (.read r)) (v : Bit) (d : Nat) :
    s.hasLine r = true ∧
      ((s.afterRead r v d).seq.k + 1 < (s.afterRead r v d).seq.ops.length → (s.afterRead r v d).nextOp.InProgress) := by
  unfold State.InProgress at h
  split at h
  next reset bits hcmd =>
    obtain ⟨q, w, he, -, -⟩ := write_of_mem_shiftOps (h.1 ▸ List.mem_of_getElem? hop)
    cases he
  next hcmd =>
    obtain ⟨rfl, hops, hk⟩ := oe_read_is_first h.2 hop
    refine ⟨State.hasLine_oe h.1, ?_⟩
    cases v with
    | false => simp [hops, hk, hcmd, followUp, enableFollowUp]
    | true => simpa [hops, hk, hcmd, followUp, enableFollowUp, State.InProgress, State.nextOp] using h.1
  next hcmd =>
    obtain ⟨rfl, hops, hk⟩ := oe_read_is_first h.2 hop
    refine ⟨State.hasLine_oe h.1, ?_⟩
    cases v with
    | false => simpa [hops, hk, hcmd, followUp, disableFollowUp, State.InProgress, State.nextOp] using h.1
    | true => simp [hops, hk, hcmd, followUp, disableFollowUp]
  next hcmd =>
    obtain ⟨hoe, hops, hk⟩ := h
    simp [hops, hk] at hop
    exact ⟨hop ▸ State.hasLine_oe hoe, by simp [hops, hk, hcmd, followUp]⟩
  next => exact h.elim
  next => exact h.elim

/-! ### The invariant, one effect at a time -/

/-- What a line access keeps of the invariant in IDLE and BUSY: the clauses that do not speak of `SEQ` or `HIST`. -/
structure State.Sound (s : State) : Prop where
  configured : s.cfg ≠ none
  chipCount  : ∀ c, s.cfg = some c → badChipCount s.platform c.chips = false
  absentLine : ∀ r, s.hasLine r = false → s.line.get r = .unknown
  stages     : s.chain.sr.length = s.stages ∧ s.chain.out.length = s.stages
  marks      : s.marks.Pairwise (fun a b => a.number < b.number)
  unfaulted  : Cause.concurrentCommand ∉ s.marks

theorem State.Inv.unfaulted {s : State} (h : s.Inv) (hf : s.seq.phase ≠ .faulted) :
    Cause.concurrentCommand ∉ s.marks :=
  fun hm => hf (h.faultMarked.mpr hm)

theorem State.Inv.sound {s : State} (h : s.Inv) (hp : s.seq.phase = .idle ∨ s.seq.phase = .busy) : s.Sound where
  configured := h.configured (hp.imp_right .inl)
  chipCount := h.chipCount
  absentLine := h.absentLine
  stages := h.stages
  marks := h.marks
  unfaulted := h.unfaulted (by rcases hp with hp | hp <;> simp [hp])

theorem State.hasLine_of_cfg {s t : State} (h : t.cfg = s.cfg) (r : Role) : t.hasLine r = s.hasLine r := by
  cases r <;> simp [State.hasLine, h]

theorem State.stages_of_cfg {s t : State} (h : t.cfg = s.cfg) : t.stages = s.stages := by
  simp [State.stages, h]

/-- A change of the lines that exist, and of the chain but not its length, keeps the state sound. -/
theorem State.Sound.of_frame {s t : State} (h : s.Sound) (hc : t.cfg = s.cfg) (hp : t.platform = s.platform)
    (hm : t.marks = s.marks) (hl : ∀ r, s.hasLine r = false → t.line.get r = .unknown)
    (hsr : t.chain.sr.length = s.chain.sr.length) (hout : t.chain.out.length = s.chain.out.length) : t.Sound where
  configured := hc ▸ h.configured
  chipCount := by rw [hc, hp]; exact h.chipCount
  absentLine := fun r hr => hl r (State.hasLine_of_cfg hc r ▸ hr)
  stages := by rw [hsr, hout, State.stages_of_cfg hc]; exact h.stages
  marks := hm ▸ h.marks
  unfaulted := hm ▸ h.unfaulted

/-- An access of a line that exists leaves the absent ones unknown. -/
theorem State.Sound.absentLine_set {s : State} (h : s.Sound) {r : Role} (hr : s.hasLine r = true) (v : Level)
    (q : Role) (hq : s.hasLine q = false) : (s.line.set r v).get q = .unknown := by
  rw [Lines.get_set_other _ _ (by rintro rfl; simp [hr] at hq)]
  exact h.absentLine q hq

/-- A command that ends leaves the invariant: `SEQ` is at rest in IDLE, with the response just recorded. -/
theorem State.Sound.inv_complete {s : State} (h : s.Sound) (resp : Response) : (complete resp s).Inv where
  chipCount := h.chipCount
  configured := fun _ => h.configured
  fresh := by simp
  absentLine := h.absentLine
  stages := h.stages
  resting := by simp
  inProgress := by simp
  linesHeld := by simp [lastWritten]
  marks := h.marks
  faultMarked := by simp [h.unfaulted]
  response := by simp [lastResponse]

/-- A BUSY controller with a command in progress. -/
theorem State.Sound.inv_of_busy {s : State} (h : s.Sound) (hp : s.seq.phase = .busy) (hi : s.InProgress)
    (hl : ∀ r v, lastWritten r (s.seq.ops.take s.seq.k) = some v → s.line.get r = levelOf v)
    (hr : s.seq.resp = lastResponse s.hist) : s.Inv where
  chipCount := h.chipCount
  configured := fun _ => h.configured
  fresh := by simp [hp]
  absentLine := h.absentLine
  stages := h.stages
  resting := fun hb => absurd hp hb
  inProgress := fun _ => hi
  linesHeld := hl
  marks := h.marks
  faultMarked := by simp [hp, h.unfaulted]
  response := hr

/-- The advance after a micro-op: the command ends, or the next micro-op is due. -/
theorem State.Sound.inv_advance {s : State} (h : s.Sound) (ok : Response) (hp : s.seq.phase = .busy)
    (hi : s.seq.k + 1 < s.seq.ops.length → s.nextOp.InProgress)
    (hl : ∀ r v, lastWritten r (s.seq.ops.take (s.seq.k + 1)) = some v → s.line.get r = levelOf v)
    (hr : s.seq.resp = lastResponse s.hist) : (advance ok s).Inv := by
  rcases advance_cases ok s with ⟨hk, he⟩ | ⟨-, he⟩ <;> rw [he]
  · have hn : s.nextOp.Sound := h.of_frame rfl rfl rfl h.absentLine rfl rfl
    exact hn.inv_of_busy hp (hi hk) hl hr
  · exact h.inv_complete ok

/-- The micro-ops performed so far, with the one at the index. -/
theorem take_succ_of_getElem? {ops : List MicroOp} {k : Nat} {op : MicroOp} (h : ops[k]? = some op) :
    ops.take (k + 1) = ops.take k ++ [op] := by
  rw [List.take_add_one, h]; rfl

theorem State.Inv.keep_write {s : State} (h : s.Inv) (hp : s.seq.phase = .busy) {r : Role} {v : Bit}
    (hop : s.seq.ops[s.seq.k]? = some (.write r v)) (d : Nat) :
    (advance .success ((drive r v s).withDraws d)).Inv := by
  have hs := h.sound (.inr hp)
  obtain ⟨hline, hnext⟩ := (h.inProgress hp).next_write hop
  have hsound : ((drive r v s).withDraws d).Sound :=
    hs.of_frame rfl rfl rfl (hs.absentLine_set hline _) (drive_sr_length r v s)
      (drive_out_length r v s (hs.stages.1.trans hs.stages.2.symm))
  refine hsound.inv_advance _ hp hnext (fun q w hw => ?_) (by simpa [lastResponse] using h.response)
  simp only [State.withDraws_seq, drive_seq, take_succ_of_getElem? hop, lastWritten_append_write] at hw
  by_cases hq : q = r
  · subst hq; simp_all
  · simpa [Lines.get_set_other _ _ hq] using h.linesHeld q w (by simpa [Ne.symm hq] using hw)

theorem State.Inv.keep_lose {s : State} (h : s.Inv) (hp : s.seq.phase = .busy) {r : Role} {v : Bit}
    (hop : s.seq.ops[s.seq.k]? = some (.write r v)) (d : Nat) :
    (complete (.ioError r) ((loseWrite r s).withDraws d)).Inv := by
  have hs := h.sound (.inr hp)
  obtain ⟨hline, -⟩ := (h.inProgress hp).next_write hop
  have hsound : ((loseWrite r s).withDraws d).Sound :=
    hs.of_frame rfl rfl rfl (hs.absentLine_set hline _) (by simp) (by simp)
  exact hsound.inv_complete _

theorem State.Inv.keep_read {s : State} (h : s.Inv) (hp : s.seq.phase = .busy) {r : Role} {v : Bit}
    (hop : s.seq.ops[s.seq.k]? = some (.read r)) (hl : s.line.get r = .unknown ∨ s.line.get r = levelOf v) (d : Nat) :
    (advance (readResponse s.seq.cmd v) (s.afterRead r v d)).Inv := by
  have hs := h.sound (.inr hp)
  obtain ⟨hline, hnext⟩ := (h.inProgress hp).next_read hop v d
  have hsound : (s.afterRead r v d).Sound := hs.of_frame rfl rfl rfl (hs.absentLine_set hline _) rfl rfl
  refine hsound.inv_advance _ hp hnext (fun q w hw => ?_) (by simpa [lastResponse] using h.response)
  have hk : s.seq.k < s.seq.ops.length := (List.getElem?_eq_some_iff.mp hop).1
  have hheld : s.line.get q = levelOf w := by
    refine h.linesHeld q w ?_
    simpa [List.take_append_of_le_length hk, take_succ_of_getElem? hop] using hw
  by_cases hq : q = r
  · subst hq
    rcases hl with hl | hl
    · exact absurd (hheld.symm.trans hl) (levelOf_ne_unknown w)
    · simpa [← hl] using hheld
  · simpa [Lines.get_set_other _ _ hq] using hheld

theorem State.Inv.keep_fault {s : State} (h : s.Inv) (hp : s.seq.phase = .busy) (c : Command) :
    (concurrentCommand (s.issue c)).Inv where
  chipCount := h.chipCount
  configured := fun _ => h.configured (.inr (.inl hp))
  fresh := by simp
  absentLine := fun r hr => by
    rw [concurrentCommand_line, Lines.get_afterFault]
    split
    next ho => exact h.absentLine .oe (ho ▸ hr)
    next => rfl
  stages := ⟨(Chain.lost_sr_length _).trans h.stages.1, (Chain.lost_out_length _).trans h.stages.2⟩
  resting := by simp
  inProgress := by simp
  linesHeld := by simp [lastWritten]
  marks := insertCause_canonical _ _ h.marks
  faultMarked := by simp [mem_insertCause]
  response := by simp [lastResponse]

theorem State.Inv.keep_refusal {s : State} (h : s.Inv) (hb : s.seq.phase ≠ .busy) (hf : s.seq.phase ≠ .faulted)
    {cause : Cause} (hc : cause ≠ .concurrentCommand) (c : Command) : (refuse cause (s.issue c)).Inv where
  chipCount := h.chipCount
  configured := h.configured
  fresh := h.fresh
  absentLine := h.absentLine
  stages := h.stages
  resting := h.resting
  inProgress := fun hp => absurd hp hb
  linesHeld := h.linesHeld
  marks := insertCause_canonical _ _ h.marks
  faultMarked := by simp [hf, mem_insertCause, hc.symm, h.unfaulted hf]
  response := by simp [lastResponse]

theorem State.Inv.keep_release {s : State} (h : s.Inv) (hb : s.seq.phase ≠ .busy) (hf : s.seq.phase ≠ .faulted) :
    (endOfLife s).Inv where
  chipCount := h.chipCount
  configured := by simp
  fresh := by simp
  absentLine := h.absentLine
  stages := h.stages
  resting := fun _ => h.resting hb
  inProgress := by simp
  linesHeld := h.linesHeld
  marks := h.marks
  faultMarked := by simp [h.unfaulted hf]
  response := h.response

theorem State.Inv.keep_construct {s : State} (h : s.Inv) (hp : s.seq.phase = .unconfigured) (o m : Bit) {n : Nat}
    (hn : badChipCount s.platform n = false) (c : Command) :
    (complete .success (configure o m n (s.issue c))).Inv := by
  have hsound : (configure o m n (s.issue c)).Sound :=
    { configured := by simp
      chipCount := by simpa using hn
      absentLine := fun r _ => (h.fresh hp).2 r
      stages := by simp [State.stages]
      marks := h.marks
      unfaulted := h.unfaulted (by simp [hp]) }
  exact hsound.inv_complete _

/-- The invariant is kept by every effect. -/
theorem Effect.inv {s t : State} (e : Effect s t) (h : s.Inv) : t.Inv := by
  cases e with
  | hold => exact h
  | release hb hf => exact h.keep_release hb hf
  | fault c hp => exact h.keep_fault hp c
  | refusal c cause hc hb hf => exact h.keep_refusal hb hf hc c
  | construct o m n hp hn => exact h.keep_construct hp o m hn _
  | error c e hp =>
    have hsound : (s.issue c).Sound := (h.sound (.inl hp)).of_frame rfl rfl rfl h.absentLine rfl rfl
    exact hsound.inv_complete e
  | accept i ops hp hi =>
    have hsound : (enterBusy i ops (s.issue (encode i))).Sound :=
      (h.sound (.inl hp)).of_frame rfl rfl rfl h.absentLine rfl rfl
    exact hsound.inv_of_busy rfl hi (by simp [lastWritten]) (by simpa [lastResponse] using h.response)
  | write r v d hp hop => exact h.keep_write hp hop d
  | lose r v d hp hop => exact h.keep_lose hp hop d
  | read r v d hp hop hl => exact h.keep_read hp hop hl d
  | pastEnd hp => exact (h.sound (.inr hp)).inv_complete _

/-- The invariant does not speak of the host. -/
theorem State.Inv.withHost {s : State} (h : s.Inv) (rest : List HostAction) : State.Inv { s with host := rest } :=
  { h with }

/-- Settles O3: the invariant survives each of the effects a step can have. -/
theorem stepKeepsInvariant : Obligations.StepKeepsInvariant := by
  intro s t h hstep
  obtain ⟨rest, e⟩ := step_effect hstep
  exact e.inv (h.withHost rest)

end Sys2Proof.Machine
end

section
/-! PROOF. No operation reads the chain but to write the chain (10_state.md R38). -/

namespace Sys2Proof.Machine

/-! ### Blindness to the chain -/

/-- `s` with another chain. -/
def State.withChain (s : State) (c : Chain) : State := { s with chain := c }

section
variable (s : State) (c : Chain)

@[simp] theorem State.withChain_cfg : (s.withChain c).cfg = s.cfg := rfl
@[simp] theorem State.withChain_line : (s.withChain c).line = s.line := rfl
@[simp] theorem State.withChain_seq : (s.withChain c).seq = s.seq := rfl
@[simp] theorem State.withChain_chain : (s.withChain c).chain = c := rfl
@[simp] theorem State.withChain_hist : (s.withChain c).hist = s.hist := rfl
@[simp] theorem State.withChain_marks : (s.withChain c).marks = s.marks := rfl
@[simp] theorem State.withChain_platform : (s.withChain c).platform = s.platform := rfl
@[simp] theorem State.withChain_draws : (s.withChain c).draws = s.draws := rfl
@[simp] theorem State.withChain_host : (s.withChain c).host = s.host := rfl

end

/-- Two outcomes that differ in the chain of the next state only. -/
inductive SameButChain : Host.Outcome State Fault Refusal → Host.Outcome State Fault Refusal → Prop where
  | next (t : State) (c : Chain) : SameButChain (.next t) (.next (t.withChain c))
  | fault (f : Fault) : SameButChain (.fault f) (.fault f)
  | refused (r : Refusal) : SameButChain (.refused r) (.refused r)

/-- An operation that, but for the chain, does the same from two states that differ in their chain only. -/
def IgnoresChain (f : State → State) : Prop := ∀ s c, ∃ c', f (s.withChain c) = (f s).withChain c'

theorem IgnoresChain.comp {f g : State → State} (hg : IgnoresChain g) (hf : IgnoresChain f) :
    IgnoresChain fun s => g (f s) := by
  intro s c
  obtain ⟨c₁, h₁⟩ := hf s c
  obtain ⟨c₂, h₂⟩ := hg (f s) c₁
  exact ⟨c₂, (congrArg g h₁).trans h₂⟩

/-- The next state of an operation that ignores the chain. -/
theorem IgnoresChain.next {f : State → State} (hf : IgnoresChain f) (s : State) (c : Chain) :
    SameButChain (.next (f s)) (.next (f (s.withChain c))) := by
  obtain ⟨c', h⟩ := hf s c
  exact h ▸ .next _ c'

theorem ignoresChain_issue (c : Command) : IgnoresChain (State.issue c) := fun _ ch => ⟨ch, rfl⟩

theorem ignoresChain_refuse (cause : Cause) : IgnoresChain (refuse cause) := fun _ ch => ⟨ch, rfl⟩

theorem ignoresChain_complete (resp : Response) : IgnoresChain (complete resp) := fun _ ch => ⟨ch, rfl⟩

theorem ignoresChain_enterBusy (i : Instr) (ops : List MicroOp) : IgnoresChain (enterBusy i ops) :=
  fun _ ch => ⟨ch, rfl⟩

theorem ignoresChain_endOfLife : IgnoresChain endOfLife := fun _ ch => ⟨ch, rfl⟩

theorem ignoresChain_concurrentCommand : IgnoresChain concurrentCommand := fun _ ch => ⟨ch.lost, rfl⟩

theorem ignoresChain_configure (o m : Bit) (n : Nat) : IgnoresChain (configure o m n) :=
  fun s _ => ⟨(configure o m n s).chain, rfl⟩

theorem ignoresChain_drive (r : Role) (v : Bit) : IgnoresChain (drive r v) :=
  fun s ch => ⟨(drive r v (s.withChain ch)).chain, rfl⟩

theorem ignoresChain_advance (ok : Response) : IgnoresChain (advance ok) := by
  intro s ch
  rcases advance_cases ok s with ⟨hk, h⟩ | ⟨hk, h⟩
  · exact ⟨ch, by rw [h]; exact if_pos hk⟩
  · exact ⟨ch, by rw [h]; exact if_neg (Nat.not_lt.mpr hk)⟩

/-- A choice by anything but the chain, between operations that ignore it. -/
theorem IgnoresChain.ite {p : State → Prop} [DecidablePred p] {f g : State → State}
    (hp : ∀ s c, p (s.withChain c) ↔ p s) (hf : IgnoresChain f) (hg : IgnoresChain g) :
    IgnoresChain fun s => if p s then f s else g s := by
  intro s c
  by_cases h : p s
  · simpa [h, hp] using hf s c
  · simpa [h, hp] using hg s c

/-- A write micro-op, with its draw, as one choice. -/
theorem performWrite_eq (r : Role) (v : Bit) :
    performWrite r v = fun s =>
      if s.platform.pinWritesFallible = true then
        if Config.writeFails s.draws = true then complete (.ioError r) (loseWrite r { s with draws := s.draws + 1 })
        else advance .success (drive r v { s with draws := s.draws + 1 })
      else advance .success (drive r v s) := by
  funext s
  unfold performWrite pinWrite
  split_ifs <;> rfl

theorem ignoresChain_performWrite (r : Role) (v : Bit) : IgnoresChain (performWrite r v) := by
  have hdraw : IgnoresChain fun s => { s with draws := s.draws + 1 } := fun _ ch => ⟨ch, rfl⟩
  have hlose : IgnoresChain (loseWrite r) := fun _ ch => ⟨ch.lost, rfl⟩
  have hdrive : IgnoresChain fun s => advance .success (drive r v s) :=
    (ignoresChain_advance _).comp (ignoresChain_drive r v)
  rw [performWrite_eq]
  exact .ite (fun _ _ => .rfl)
    (.ite (fun _ _ => .rfl) ((ignoresChain_complete _).comp (hlose.comp hdraw)) (hdrive.comp hdraw)) hdrive

theorem pinRead_withChain (r : Role) (s : State) (c : Chain) :
    pinRead r (s.withChain c) = ((pinRead r s).1, (pinRead r s).2.withChain c) := by
  simp only [pinRead, State.withChain_line, State.withChain_draws]
  split <;> rfl

theorem ignoresChain_performRead (r : Role) : IgnoresChain (performRead r) := by
  intro s c
  obtain ⟨c', h⟩ := ignoresChain_advance (readResponse (pinRead r s).2.seq.cmd (pinRead r s).1)
    { (pinRead r s).2 with
      seq := { (pinRead r s).2.seq with
        ops := (pinRead r s).2.seq.ops ++ followUp (pinRead r s).2.seq.cmd (pinRead r s).1 } } c
  exact ⟨c', by simp only [performRead, pinRead_withChain]; exact h⟩

theorem ignoresChain_microStep : IgnoresChain microStep := by
  intro s c
  unfold microStep
  simp only [State.withChain_seq]
  split
  next r v _ => exact ignoresChain_performWrite r v s c
  next r _ => exact ignoresChain_performRead r s c
  next => exact ignoresChain_complete .success s c

theorem ignoresChain_beginOE (i : Instr) : IgnoresChain (beginOE i) :=
  .ite (fun _ _ => .rfl) (ignoresChain_enterBusy i _) (ignoresChain_complete _)

theorem ignoresChain_ownRule (i : Instr) : IgnoresChain (ownRule i) := by
  cases i with
  | construct o m n =>
    exact .ite (fun _ _ => .rfl) (ignoresChain_refuse _)
      ((ignoresChain_complete _).comp (ignoresChain_configure o m n))
  | enableOutput => exact ignoresChain_beginOE _
  | disableOutput => exact ignoresChain_beginOE _
  | isOutputEnabled => exact ignoresChain_beginOE _
  | shift reset bits =>
    have hlength : IgnoresChain fun s => raise (.lengthError s.stages bits.length) s := fun _ ch => ⟨ch, rfl⟩
    exact .ite (fun _ _ => .rfl) hlength
      (.ite (fun _ _ => .rfl) (ignoresChain_complete _) (ignoresChain_enterBusy _ _))

/-- The phase checks of a record, before what follows them. -/
theorem sameButChain_phaseGate (c : Command) (s : State) (ch : Chain) {k k' : Host.Outcome State Fault Refusal}
    (hk : SameButChain k k') : SameButChain (phaseGate c s k) (phaseGate c (s.withChain ch) k') := by
  unfold phaseGate
  cases hp : s.seq.phase <;> simp only [State.withChain_seq, hp]
  · exact hk
  · exact hk
  · exact (ignoresChain_concurrentCommand.comp (ignoresChain_issue c)).next s ch
  · exact .fault _
  · exact ((ignoresChain_refuse _).comp (ignoresChain_issue c)).next s ch

theorem sameButChain_exec (i : Instr) (s : State) (ch : Chain) :
    SameButChain (exec i s) (exec i (s.withChain ch)) := by
  rw [exec_eq_beginCommand, exec_eq_beginCommand]
  refine sameButChain_phaseGate _ s ch ?_
  simp only [State.withChain_seq]
  split
  next cause _ => exact ((ignoresChain_refuse cause).comp (ignoresChain_issue _)).next s ch
  next => exact ((ignoresChain_ownRule i).comp (ignoresChain_issue _)).next s ch

theorem sameButChain_takeCommand (c : Command) (s : State) (ch : Chain) :
    SameButChain (takeCommand c s) (takeCommand c (s.withChain ch)) := by
  refine sameButChain_phaseGate c s ch ?_
  cases decode c with
  | ok i => exact sameButChain_exec i s ch
  | rejected why => exact ((ignoresChain_refuse _).comp (ignoresChain_issue c)).next s ch

theorem sameButChain_proceed (s : State) (ch : Chain) : SameButChain (proceed s) (proceed (s.withChain ch)) := by
  unfold proceed
  cases hp : s.seq.phase <;> simp only [State.withChain_seq, hp]
  · exact .next s ch
  · exact .next s ch
  · exact ignoresChain_microStep.next s ch
  · exact .fault _
  · exact .next s ch

theorem sameButChain_step (s : State) (ch : Chain) : SameButChain (step s) (step (s.withChain ch)) := by
  unfold step turn
  simp only [State.withChain_seq, State.withChain_host]
  split
  next => exact sameButChain_proceed s ch
  next rest _ => exact sameButChain_proceed { s with host := rest } ch
  next c rest _ => exact sameButChain_takeCommand c { s with host := rest } ch
  next c rest _ =>
    by_cases hb : s.seq.phase = .busy
    · simp only [hb, if_true]; exact sameButChain_proceed s ch
    · simp only [hb, if_false]; exact sameButChain_takeCommand c { s with host := rest } ch
  next rest _ =>
    have hrelease := ignoresChain_endOfLife.next { s with host := rest } ch
    split
    next => exact sameButChain_proceed s ch
    next => exact .fault _
    next => exact hrelease
    next => exact hrelease
    next => exact hrelease

/-- Settles O7: a step from the state with another chain has the same outcome but for the chain. -/
theorem controllerIsBlindToChain : Obligations.ControllerIsBlindToChain := by
  intro s other
  have h : SameButChain (step s) (step { s with chain := other }) := sameButChain_step s other
  refine ⟨fun t ht => ?_, fun f hf => ?_⟩
  · rw [ht] at h
    generalize step { s with chain := other } = o at h ⊢
    cases h with
    | next _ c => exact ⟨c, rfl⟩
  · rw [hf] at h
    generalize step { s with chain := other } = o at h ⊢
    cases h with
    | fault => rfl

end Sys2Proof.Machine
end

section
/-! PROOF. What every step keeps of the history, the marks, the configuration and the lines; the invariant at reset;
the visible outputs. -/

namespace Sys2Proof.Machine

/-! ### What grows, and what stays -/

/-- The history grows, marks stay, and the parameters do not change, whatever the effect. -/
theorem Effect.grows {s t : State} (e : Effect s t) :
    (∃ more, t.hist = s.hist ++ more) ∧ (∀ m, m ∈ s.marks → m ∈ t.marks) ∧ t.platform = s.platform := by
  cases e with
  | hold => exact ⟨⟨[], by simp⟩, fun _ h => h, rfl⟩
  | release => exact ⟨⟨[], by simp⟩, fun _ h => h, rfl⟩
  | fault => exact ⟨⟨_, List.append_assoc ..⟩, fun m h => (mem_insertCause m _ _).mpr (.inr h), rfl⟩
  | refusal => exact ⟨⟨_, List.append_assoc ..⟩, fun m h => (mem_insertCause m _ _).mpr (.inr h), rfl⟩
  | construct => exact ⟨⟨_, List.append_assoc ..⟩, fun _ h => h, rfl⟩
  | error => exact ⟨⟨_, List.append_assoc ..⟩, fun _ h => h, rfl⟩
  | accept => exact ⟨⟨_, rfl⟩, fun _ h => h, rfl⟩
  | write r v d =>
    obtain ⟨more, h⟩ := advance_hist_grows .success ((drive r v s).withDraws d)
    exact ⟨⟨.write r v :: more, by simpa using h⟩, by simp, by simp⟩
  | lose => exact ⟨⟨_, rfl⟩, fun _ h => h, rfl⟩
  | read r v d =>
    obtain ⟨more, h⟩ := advance_hist_grows (readResponse s.seq.cmd v) (s.afterRead r v d)
    exact ⟨⟨.read r v :: more, by simpa using h⟩, by simp, by simp⟩
  | pastEnd => exact ⟨⟨_, rfl⟩, fun _ h => h, rfl⟩

/-- Settles O5. -/
theorem historyAndMarksOnlyGrow : Obligations.HistoryAndMarksOnlyGrow := by
  intro s t hstep
  obtain ⟨rest, e⟩ := step_effect hstep
  exact e.grows

/-- The configuration is written by CONSTRUCT in UNCONFIGURED, and by no other effect. -/
theorem Effect.cfg_eq_or_construct {s t : State} (e : Effect s t) :
    t.cfg = s.cfg ∨ ∃ o m n, t.cfg = some ⟨n, o, m⟩ ∧ s.seq.phase = .unconfigured ∧
      t.hist = s.hist ++ [.cmd (encode (.construct o m n)), .resp ⟨.ok, false, 0, 0, none⟩] := by
  cases e with
  | construct o m n hp => exact .inr ⟨o, m, n, rfl, hp, List.append_assoc ..⟩
  | write => exact .inl (advance_cfg ..)
  | read => exact .inl (advance_cfg ..)
  | _ => exact .inl rfl

/-- Settles O6: in UNCONFIGURED, where CONSTRUCT writes it, the invariant says that there is no configuration yet. -/
theorem configurationIsWrittenOnce : Obligations.ConfigurationIsWrittenOnce := by
  intro s t hinv hstep
  obtain ⟨rest, e⟩ := step_effect hstep
  rcases e.cfg_eq_or_construct with hc | ⟨o, m, n, hc, hp, hh⟩
  · have hc : t.cfg = s.cfg := hc
    exact ⟨fun c h => hc.trans h, fun h => absurd hc h⟩
  · exact ⟨fun c h => by simp [(hinv.fresh hp).1] at h, fun _ => ⟨o, m, n, hc, hp, hh⟩⟩

/-! ### Commands and responses -/

/-- Every command issued has its response, but for the one in progress or cut off by the fault. -/
def State.Balanced (s : State) : Prop := commandCount s.hist = responseCount s.hist + s.unanswered

theorem State.unanswered_of_busy {s : State} (hp : s.seq.phase = .busy) : s.unanswered = 1 := by
  simp [State.unanswered, hp]

theorem State.unanswered_of_rest {s : State} (hb : s.seq.phase ≠ .busy) (hf : s.seq.phase ≠ .faulted) :
    s.unanswered = 0 := by
  simp [State.unanswered, hb, hf]

/-- A command that ends gets its response. -/
theorem State.Balanced.complete {s : State} (h : commandCount s.hist = responseCount s.hist + 1) (resp : Response) :
    (complete resp s).Balanced := by
  simp [State.Balanced, State.unanswered, h]

/-- After a micro-op, whose event is no command and no response, the command is still in progress or gets its
response. -/
theorem State.Balanced.advance (s : State) (h : commandCount s.hist = responseCount s.hist + 1) (ok : Response)
    (hp : s.seq.phase = .busy) : (advance ok s).Balanced := by
  rcases advance_cases ok s with ⟨-, he⟩ | ⟨-, he⟩ <;> rw [he]
  · simpa [State.Balanced, State.unanswered, hp] using h
  · exact .complete h ok

/-- The balance of commands and responses is kept by every effect. -/
theorem Effect.balanced {s t : State} (e : Effect s t) (h : s.Balanced) : t.Balanced := by
  have hbusy (hp : s.seq.phase = .busy) : commandCount s.hist = responseCount s.hist + 1 :=
    h.trans (by rw [State.unanswered_of_busy hp])
  have hrest (hb : s.seq.phase ≠ .busy) (hf : s.seq.phase ≠ .faulted) : commandCount s.hist = responseCount s.hist :=
    h.trans (by rw [State.unanswered_of_rest hb hf, Nat.add_zero])
  cases e with
  | hold => exact h
  | release hb hf =>
    simp [State.Balanced, State.unanswered, hrest hb hf]
  | fault c hp => simp [State.Balanced, State.unanswered, hbusy hp]
  | refusal c cause hc hb hf => simp [State.Balanced, State.unanswered, hrest hb hf, hb, hf]
  | construct o m n hp => simp [State.Balanced, State.unanswered, hrest, hp]
  | error c e hp => exact .complete (by simp [hrest, hp]) e
  | accept i ops hp => simp [State.Balanced, State.unanswered, hrest, hp]
  | write r v d hp => exact State.Balanced.advance _ (by simpa using hbusy hp) _ hp
  | lose r v d hp => exact .complete (hbusy hp) _
  | read r v d hp => exact State.Balanced.advance _ (by simpa using hbusy hp) _ hp
  | pastEnd hp => exact .complete (hbusy hp) _

/-- Settles O8. -/
theorem oneResponsePerCommand : Obligations.OneResponsePerCommand := by
  intro s t h hstep
  obtain ⟨rest, e⟩ := step_effect hstep
  exact e.balanced h

/-! ### Lines -/

/-- Only the role written can read another level afterwards. -/
theorem Lines.eq_of_get_set_ne {l : Lines} {r q : Role} {v : Level} (h : (l.set r v).get q ≠ l.get q) : q = r :=
  by_contra fun hq => h (Lines.get_set_other l v hq)

/-- What can change a line's level: a write of it, a read of it at an unknown level, or the fault. -/
theorem Effect.line_changes {s t : State} (e : Effect s t) {q : Role} (h : t.line.get q ≠ s.line.get q) :
    s.seq.phase = .busy ∧
      ((∃ v, s.seq.ops[s.seq.k]? = some (.write q v)) ∨
        (s.seq.ops[s.seq.k]? = some (.read q) ∧ s.line.get q = .unknown) ∨
        (t.seq.phase = .faulted ∧ q ≠ .oe ∧ t.line.get q = .unknown)) := by
  cases e with
  | fault c hp =>
    have hoe : q ≠ .oe := by rintro rfl; exact h rfl
    exact ⟨hp, .inr (.inr ⟨rfl, hoe, by simp [Lines.get_afterFault, hoe]⟩)⟩
  | write r v d hp hop =>
    obtain rfl : q = r := Lines.eq_of_get_set_ne (by simpa using h)
    exact ⟨hp, .inl ⟨v, hop⟩⟩
  | lose r v d hp hop =>
    obtain rfl : q = r := Lines.eq_of_get_set_ne (by simpa using h)
    exact ⟨hp, .inl ⟨v, hop⟩⟩
  | read r v d hp hop hl =>
    obtain rfl : q = r := Lines.eq_of_get_set_ne (by simpa using h)
    exact ⟨hp, .inr (.inl ⟨hop, hl.resolve_right fun hv => h (by simp [hv])⟩)⟩
  | _ => exact absurd rfl h

/-- Settles O9. -/
theorem linesKeepTheirLevel : Obligations.LinesKeepTheirLevel := by
  intro s t r hstep h
  obtain ⟨rest, e⟩ := step_effect hstep
  exact e.line_changes h

/-! ### Single operations -/

/-- Settles O24: the step is the write and the advance, and the advance moves `SEQ.K` or completes the command. -/
theorem busyStepPerformsTheNextWrite : Obligations.BusyStepPerformsTheNextWrite := by
  intro s r v hp hh hf hop
  have hstep : step s = .next (advance .success (drive r v s)) := by rw [step_busy hp hh, microStep_write hop hf]
  rcases advance_cases .success (drive r v s) with ⟨hk, he⟩ | ⟨hk, he⟩ <;> rw [he] at hstep
  · exact ⟨_, hstep, rfl, rfl, ⟨rfl, rfl, rfl, rfl⟩, rfl, fun _ => ⟨rfl, rfl⟩, fun h => absurd h hk.ne⟩
  · exact ⟨_, hstep, rfl, rfl, ⟨rfl, rfl, rfl, rfl⟩, rfl, fun h => absurd h (Nat.not_lt.mpr hk),
      fun _ => ⟨⟨rfl, rfl, rfl, rfl⟩, by simp; rfl⟩⟩

/-- Settles O2. -/
theorem resetSatisfiesInvariant : Obligations.ResetSatisfiesInvariant := by
  refine ⟨?_, fun _ x hx => absurd hx List.not_mem_nil⟩
  exact {
    chipCount := by simp [State.reset]
    configured := by simp [State.reset]
    fresh := fun _ => ⟨rfl, fun r => by cases r <;> rfl⟩
    absentLine := fun r _ => by cases r <;> rfl
    stages := ⟨rfl, rfl⟩
    resting := fun _ => ⟨rfl, rfl, rfl⟩
    inProgress := by simp [State.reset]
    linesHeld := by simp [State.reset, lastWritten]
    marks := .nil
    faultMarked := by simp [State.reset]
    response := rfl }

/-- An optional line of a configured controller: the line where it is managed, the tied level where it is not
(10_state.md R29). -/
theorem effective_some (m : Bit) (line : Level) (tied : Bit) :
    effective (some m) line tied = if m then line else if tied then .one else .zero := rfl

/-- Settles O4: the visible outputs are the latches, each through the gate of R36. -/
theorem visibleOutputsFollowOE : Obligations.VisibleOutputsFollowOE := by
  intro s c hc
  refine ⟨?_, ?_, by simp [State.visible], fun i v hv => ?_⟩
  · simp [State.oeEff, hc, effective_some]
  · simp [State.mrEff, hc, effective_some]
  · have hq : s.visible[i]? = some (gate s.oeEff v) := by simp [State.visible, hv]
    refine ⟨fun h => ?_, fun h => ?_, fun h => ?_⟩ <;> rw [hq, h]
    · rfl
    · rfl
    · cases v <;> rfl

end Sys2Proof.Machine
end

section
/-! PROOF. A step runs the command whose record the host presents. -/

namespace Sys2Proof

/-! ### The decoder reads back what the encoder writes -/

/-- A header is its fields of R71, bit 7 first: eight bits, so every header is compared. -/
theorem Header.eq_fields (h : Header) :
    h = h.reserved ++ BitVec.ofBool h.flagM ++ BitVec.ofBool h.flagO ++ BitVec.ofBool h.flagR ++ h.op := by
  revert h; decide

/-- A header without reserved bits is its flags and its OP. -/
theorem Header.eq_of_reserved {h : Header} (hres : h.reserved = 0#2) {n : Nat} (hn : h.op.toNat = n) :
    h = 0#2 ++ BitVec.ofBool h.flagM ++ BitVec.ofBool h.flagO ++ BitVec.ofBool h.flagR ++ BitVec.ofNat 3 n := by
  have hop : h.op = BitVec.ofNat 3 n := by rw [← hn, BitVec.ofNat_toNat, BitVec.setWidth_eq]
  rw [← hres, ← hop]
  exact h.eq_fields

theorem decodeConstruct_ok {i : Instr} {c : Command} (h : decodeConstruct c = .ok i) :
    i = .construct c.hdr.flagO c.hdr.flagM c.count ∧ c.hdr.flagR = false ∧ c.bits = [] := by
  unfold decodeConstruct at h
  split_ifs at h
  simp_all

theorem decodeNone_ok {i j : Instr} {c : Command} (h : decodeNone j c = .ok i) :
    i = j ∧ (c.hdr.flagR = false ∧ c.hdr.flagO = false ∧ c.hdr.flagM = false) ∧ c.count = 0 ∧ c.bits = [] := by
  unfold decodeNone at h
  split_ifs at h
  simp_all

theorem decodeShift_ok {i : Instr} {c : Command} (h : decodeShift c = .ok i) :
    i = .shift c.hdr.flagR c.bits ∧ (c.hdr.flagO = false ∧ c.hdr.flagM = false) ∧ c.count = 0 := by
  unfold decodeShift at h
  split_ifs at h
  simp_all

/-- The record of a command is its header and its operands. -/
theorem encode_eq {c : Command} {i : Instr} (hh : i.header = c.hdr) (hcount : (encode i).count = c.count)
    (hbits : (encode i).bits = c.bits) : encode i = c := by
  cases i <;> exact Command.mk.injEq .. ▸ ⟨hh, hcount, hbits⟩

/-- A record that decodes is the record of its command (30_encoding.md R72, R76). -/
theorem encode_of_decode {c : Command} {i : Instr} (h : decode c = .ok i) : encode i = c := by
  unfold decode at h
  split_ifs at h with hres
  have hhdr := fun n => Header.eq_of_reserved (not_not.mp hres) (n := n)
  split at h
  case h_1 hn =>
    obtain ⟨rfl, hr, hb⟩ := decodeConstruct_ok h
    refine encode_eq ((hhdr _ hn).trans ?_).symm rfl hb.symm
    rw [hr]
    cases c.hdr.flagM <;> cases c.hdr.flagO <;> rfl
  case h_2 hn | h_3 hn | h_4 hn =>
    obtain ⟨rfl, ⟨hr, ho, hm⟩, hc, hb⟩ := decodeNone_ok h
    exact encode_eq ((hhdr _ hn).trans (by rw [hr, ho, hm]; rfl)).symm hc.symm hb.symm
  case h_5 hn =>
    obtain ⟨rfl, ⟨ho, hm⟩, hc⟩ := decodeShift_ok h
    refine encode_eq ((hhdr _ hn).trans ?_).symm hc.symm rfl
    rw [ho, hm]
    cases c.hdr.flagR <;> rfl
  case h_6 => cases h

/-- A table word that decodes is placed as a record that decodes. -/
theorem decode_recordOfTableWord {nbits w : Nat} {i : Instr} (h : decodeTableWord nbits w = some i) :
    decode (recordOfTableWord nbits w) = .ok i := by
  unfold decodeTableWord at h
  split_ifs at h
  cases hd : decode (recordOfTableWord nbits w) <;> simp_all

end Sys2Proof

namespace Sys2Proof.Machine

/-- Checking the phase twice for one record is checking it once. -/
@[simp] theorem phaseGate_phaseGate (c : Command) (s : State) (k : Host.Outcome State Fault Refusal) :
    phaseGate c s (phaseGate c s k) = phaseGate c s k := by
  cases hp : s.seq.phase <;> simp [phaseGate, hp]

/-- Taking a record that decodes is the meaning of its command, in every phase. -/
theorem takeCommand_of_decode {c : Command} {i : Instr} (s : State) (h : decode c = .ok i) :
    takeCommand c s = exec i s := by
  have hgate : phaseGate c s (exec i s) = exec i s := by
    rw [exec_eq_beginCommand, beginCommand, encode_of_decode h, phaseGate_phaseGate]
  unfold takeCommand
  rw [h]
  exact hgate

/-- Settles O23. -/
theorem stepRunsTheDecodedCommand : Obligations.StepRunsTheDecodedCommand := by
  intro s c i rest h
  have htake := fun u => takeCommand_of_decode u h
  refine ⟨fun hs => ?_, fun hs hb => ?_, fun nbits w hw => ?_⟩
  · rw [← htake]; unfold step turn; rw [hs]
  · rw [← htake]; unfold step turn; rw [hs]; exact if_neg hb
  · exact takeCommand_of_decode s (decode_recordOfTableWord hw)

end Sys2Proof.Machine
end

section
/-! PROOF. What single reads and writes of a line do (20_memory.md R52, R59; 60_exceptions.md R178). -/

namespace Sys2Proof.Machine

/-- Settles O10: the first read leaves the line at a known level, so the second returns that level. -/
theorem readReturnsTheLevelAndFixesIt : Obligations.ReadReturnsTheLevelAndFixesIt := by
  intro r s
  obtain ⟨v, d, h, hl⟩ := pinRead_cases r s
  have hline : (pinRead r s).2.line.get r = levelOf v := by rw [h]; exact Lines.get_set_same ..
  refine ⟨v, congrArg Prod.fst h, fun hk => (hl.resolve_left hk).1, hline, ?_, ?_⟩
  · rw [pinRead_known r v _ hline]
  · rw [h]
    exact ⟨fun q hq => Lines.get_set_other _ _ hq, rfl, rfl, rfl, rfl, rfl⟩

/-- Merging with 0 changes no level but 1. -/
theorem merge_zero_of_ne_one {x : Level} (h : x ≠ .one) : merge x .zero = x := by
  cases x with
  | zero => rfl
  | one => exact absurd rfl h
  | unknown => rfl

/-- An MR that is not low changes no stage when none is 1, or when MR is high (60_exceptions.md R176). -/
theorem Chain.mrClear_of_no_one {mr : Level} {c : Chain} (hmr : mr ≠ .zero)
    (h : mr ≠ .one → ∀ x ∈ c.sr, x ≠ .one) : c.mrClear mr = c := by
  cases mr with
  | zero => exact absurd rfl hmr
  | one => rfl
  | unknown =>
    have hsr : c.sr.map (fun x => merge x .zero) = c.sr :=
      (List.map_congr_left fun x hx => merge_zero_of_ne_one (h (by decide) x hx)).trans (List.map_id' _)
    simp [Chain.mrClear, hsr]

/-- While MR is low every stage reads 0 (R176). -/
theorem Chain.mrClear_zero_getElem? {c : Chain} {k : Nat} {x : Level} (h : c.sr[k]? = some x) :
    (c.mrClear .zero).sr[k]? = some .zero :=
  (List.getElem?_map ..).trans (by rw [h]; rfl)

/-- Only a write to MR moves `mrEff`. -/
theorem drive_mrEff_of_ne_mr {r : Role} (v : Bit) (s : State) (h : r ≠ .mr) : (drive r v s).mrEff = s.mrEff := by
  have hmr : (s.line.set r (levelOf v)).mr = s.line.mr := Lines.get_set_other s.line (levelOf v) (q := .mr) h.symm
  simp [State.mrEff, hmr]

section
variable {s : State} {r : Role} {v : Bit} (hr : r = .data ∨ r = .oe ∨ r = .mr ∨ v = false)
include hr

/-- A write without an edge leaves the chain as `MrClear` leaves it, or as it was. -/
theorem drive_chain_of_mrClear_eq (h : s.chain.mrClear (drive r v s).mrEff = s.chain) :
    (drive r v s).chain = s.chain := by
  by_cases hm : s.line.get r = levelOf v
  · exact drive_chain_of_held r v s hm
  · rw [drive_chain_of_no_edge r v s hm hr, h]

/-- A write without an edge is no LATCH write of 1. -/
theorem drive_out_of_no_edge : (drive r v s).chain.out = s.chain.out := by
  refine drive_out_of_not_latch r v s ?_
  rcases hr with rfl | rfl | rfl | hv
  · exact .inl (by decide)
  · exact .inl (by decide)
  · exact .inl (by decide)
  · exact .inr hv

end

/-- Settles O14: a write of the level held does nothing, one that moves its line without an edge is `MrClear`, which
from a state with `State.StagesHeldLow` can only turn unknown stages into 0. -/
theorem writesWithoutAnEdgeLeaveTheChain : Obligations.WritesWithoutAnEdgeLeaveTheChain := by
  intro s r v
  refine ⟨fun hh => ⟨drive_line_of_held r v s hh, drive_chain_of_held r v s hh, rfl⟩, fun hr => ?_⟩
  refine ⟨fun hone => ?_, drive_out_of_no_edge hr, rfl, fun hlow hne => ?_⟩
  · exact drive_chain_of_mrClear_eq hr (by rw [hone, Chain.mrClear_one])
  · have hmr := drive_mrEff_of_ne_mr v s hne
    refine ⟨fun hz => ?_, fun hz hm k x hx => ⟨?_, ?_⟩⟩
    · exact drive_chain_of_mrClear_eq hr (by rw [hmr, Chain.mrClear_of_no_one hz hlow])
    · rw [drive_chain_of_no_edge r v s hm hr, hmr, hz]
      exact Chain.mrClear_zero_getElem? hx
    · have hx1 : x ≠ .one := hlow (by simp [hz]) x (List.mem_of_getElem? hx)
      cases x with
      | zero => exact .inl rfl
      | one => exact absurd rfl hx1
      | unknown => exact .inr rfl

end Sys2Proof.Machine
end

section
/-! PROOF. What holds during a SHIFT, after any of its micro-ops but the last (42_shift.md R132, R143). -/

namespace Sys2Proof.Machine

/-! ### What a stretch of writes leaves alone -/

/-- A line holds its level over a stretch that does not write it (10_state.md R28). -/
theorem drives_line_of_not_written {r : Role} {ops : List MicroOp} (s : State) (h : ∀ v, MicroOp.write r v ∉ ops) :
    (drives ops s).line.get r = s.line.get r := by
  induction ops generalizing s with
  | nil => rfl
  | cons op ops ih =>
    have hops : ∀ v, MicroOp.write r v ∉ ops := fun v hv => h v (List.mem_cons_of_mem _ hv)
    cases op with
    | read q => exact ih s hops
    | write q w =>
      have hq : r ≠ q := by rintro rfl; exact h w List.mem_cons_self
      exact (ih (drive q w s) hops).trans (Lines.get_set_other _ _ hq)

/-- The latches hold over a stretch without a LATCH write of 1 (60_exceptions.md R177). -/
theorem drives_out_of_no_latch_rise {ops : List MicroOp} (s : State) (h : MicroOp.write .latch true ∉ ops) :
    (drives ops s).chain.out = s.chain.out := by
  induction ops generalizing s with
  | nil => rfl
  | cons op ops ih =>
    have hops : MicroOp.write .latch true ∉ ops := fun hv => h (List.mem_cons_of_mem _ hv)
    cases op with
    | read q => exact ih s hops
    | write q w =>
      have hrise : ¬(q = .latch ∧ w = true) := by rintro ⟨rfl, rfl⟩; exact h List.mem_cons_self
      have hq : q ≠ .latch ∨ w = false := (not_and_or.mp hrise).imp_right Bool.eq_false_of_not_eq_true
      exact (ih (drive q w s) hops).trans (drive_out_of_not_latch q w s hq)

/-! ### The parts of a SHIFT -/

/-- The micro-ops of a SHIFT up to LATCH low: the reset pulse and steps 2 and 3 (42_shift.md R133 to R135). -/
def shiftSetup (reset : Bit) : List MicroOp :=
  resetPulse reset ++ [.write .clock false, .write .data false, .write .latch false]

/-- The micro-ops of a SHIFT between LATCH low and LATCH high: the passes and CLOCK low (R136, R137). -/
def shiftPasses (bits : List Bit) : List MicroOp := bits.reverse.flatMap bitPass ++ [.write .clock false]

theorem shiftOps_eq_parts (bits : List Bit) (reset : Bit) :
    shiftOps bits reset = shiftSetup reset ++ shiftPasses bits ++ [.write .latch true] := by
  simp [shiftOps, shiftSetup, shiftPasses]

theorem shiftSetup_length (reset : Bit) : (shiftSetup reset).length = if reset then 5 else 3 := by
  cases reset <;> rfl

theorem shiftPasses_length (bits : List Bit) : (shiftPasses bits).length = 4 * bits.length + 1 := by
  have hpass : ∀ b, (bitPass b).length = 4 := fun _ => rfl
  simp [shiftPasses, List.length_flatMap, hpass, Nat.mul_comm]

/-- No pass writes LATCH. -/
theorem latch_not_mem_shiftPasses (bits : List Bit) (v : Bit) : MicroOp.write .latch v ∉ shiftPasses bits := by
  simp [shiftPasses, bitPass]

/-- LATCH rises in the last micro-op of a SHIFT only. -/
theorem latch_rise_not_mem_before_last (bits : List Bit) (reset : Bit) :
    MicroOp.write .latch true ∉ shiftSetup reset ++ shiftPasses bits := by
  have hsetup : MicroOp.write .latch true ∉ shiftSetup reset := by cases reset <;> decide
  simp [hsetup, latch_not_mem_shiftPasses]

/-- The setup ends with LATCH low. -/
theorem drives_shiftSetup_latch (reset : Bit) (s : State) : (drives (shiftSetup reset) s).line.latch = .zero := by
  cases reset <;> rfl

section
variable {bits : List Bit} {reset : Bit} {k : Nat} (s : State)

/-- Every part of a SHIFT leaves OE alone. -/
theorem drives_take_shiftOps_oe : (drives ((shiftOps bits reset).take k) s).line.oe = s.line.oe := by
  refine drives_line_of_not_written (r := .oe) s fun v hv => ?_
  obtain ⟨r, w, he, hoe, -⟩ := write_of_mem_shiftOps (List.mem_of_mem_take hv)
  cases he
  exact hoe rfl

variable (hk : k < (shiftOps bits reset).length)
include hk

/-- A SHIFT short of its last micro-op is a part of the setup and the passes. -/
theorem take_shiftOps : (shiftOps bits reset).take k = (shiftSetup reset ++ shiftPasses bits).take k := by
  rw [shiftOps_eq_parts, List.length_append, List.length_singleton] at hk
  rw [shiftOps_eq_parts, List.take_append_of_le_length (Nat.le_of_lt_succ hk)]

theorem drives_take_shiftOps_out : (drives ((shiftOps bits reset).take k) s).chain.out = s.chain.out := by
  rw [take_shiftOps hk]
  exact drives_out_of_no_latch_rise s fun h => latch_rise_not_mem_before_last bits reset (List.mem_of_mem_take h)

/-- Once the setup is done, and until the last micro-op, LATCH is low. -/
theorem drives_take_shiftOps_latch (hsetup : (shiftSetup reset).length ≤ k) :
    (drives ((shiftOps bits reset).take k) s).line.latch = .zero := by
  rw [take_shiftOps hk, List.take_append, List.take_of_length_le hsetup, drives_append]
  refine (drives_line_of_not_written (r := .latch) _ fun v hv => ?_).trans (drives_shiftSetup_latch reset s)
  exact latch_not_mem_shiftPasses bits v (List.mem_of_mem_take hv)

end

theorem shiftOps_length (bits : List Bit) (reset : Bit) :
    (shiftOps bits reset).length = 4 * bits.length + if reset then 7 else 5 := by
  rw [shiftOps_eq_parts, List.length_append, List.length_append, shiftSetup_length, shiftPasses_length]
  cases reset <;> simp <;> omega

/-! ### The run -/

/-- A valid SHIFT in IDLE is accepted and enters BUSY with `ShiftOps` (42_shift.md R130, R131). -/
theorem exec_shift_valid {reset : Bit} {bits : List Bit} {s : State} (hp : s.seq.phase = .idle)
    (hlen : bits.length = s.stages) (hmr : reset = true → s.hasMR = true) :
    exec (.shift reset bits) s =
      .next (enterBusy (.shift reset bits) (shiftOps bits reset) (s.issue (encode (.shift reset bits)))) := by
  have hlen' : ¬bits.length ≠ (s.issue (encode (.shift reset bits))).stages := not_not.mpr hlen
  have hmr' : ¬(reset && !(s.issue (encode (.shift reset bits))).hasMR) = true := by simpa using hmr
  rw [exec_eq_beginCommand, beginCommand_open _ _ _ (.inr ⟨hp, rfl⟩), ownRule, beginShift, if_neg hlen', if_neg hmr']

/-- `k` steps into a SHIFT that has just entered BUSY: the first `k` writes, and `SEQ.K` at `k` (R143). -/
theorem runs_shift_inside {reset : Bit} {bits : List Bit} {s : State} {k : Nat} (hf : s.WritesSucceed)
    (hh : hostBlocks s.host = true) (hk : k < (shiftOps bits reset).length) :
    ∃ d, runs k (enterBusy (.shift reset bits) (shiftOps bits reset) s) =
      .next (((drives ((shiftOps bits reset).take k) s).withDraws d).withSeq
        { phase := .busy, ops := shiftOps bits reset, k := k, cmd := some (.shift reset bits), resp := s.seq.resp }) := by
  have hw : ∀ op ∈ shiftOps bits reset, ∃ r v, op = .write r v := fun op hop => by
    obtain ⟨r, v, he, -⟩ := write_of_mem_shiftOps hop
    exact ⟨r, v, he⟩
  obtain ⟨d, -, -, hr⟩ := runs_writes_inside k (enterBusy (.shift reset bits) (shiftOps bits reset) s) rfl hh hf hw
    (by simpa using hk)
  have henter : enterBusy (.shift reset bits) (shiftOps bits reset) s = s.withSeq
    { phase := .busy, ops := shiftOps bits reset, k := 0, cmd := some (.shift reset bits), resp := s.seq.resp } := rfl
  exact ⟨d, by simpa [henter] using hr⟩

/-- The visible outputs are a function of the configuration, OE, the parameters and the latches (10_state.md R36). -/
theorem State.visible_congr {s t : State} (hc : t.cfg = s.cfg) (hoe : t.line.oe = s.line.oe)
    (hp : t.platform = s.platform) (hout : t.chain.out = s.chain.out) : t.visible = s.visible := by
  simp [State.visible, State.oeEff, hc, hoe, hp, hout]

/-- Settles O42: short of its last micro-op a SHIFT is its first `k` writes, none of which is to OE or raises LATCH. -/
theorem outputsHoldDuringAShift : Obligations.OutputsHoldDuringAShift := by
  intro s c reset bits k hready hlen hmr hk
  obtain ⟨hidle, hcfg, hwrites, hblocks⟩ := hready
  have hk : k < (shiftOps bits reset).length := by rw [shiftOps_length, hlen]; exact hk
  have hexec := exec_shift_valid hidle (bits := bits) (reset := reset)
    (by simpa [State.stages, hcfg, pinsPerChip] using hlen) (by simpa [State.hasMR, hcfg] using hmr)
  obtain ⟨d, hruns⟩ := runs_shift_inside (s := s.issue (encode (.shift reset bits))) hwrites hblocks hk
  obtain ⟨hcfg', -, -, hplat, -⟩ := drives_frame ((shiftOps bits reset).take k) (s.issue (encode (.shift reset bits)))
  have hout := drives_take_shiftOps_out (s.issue (encode (.shift reset bits))) hk
  have hoe := drives_take_shiftOps_oe (bits := bits) (reset := reset) (k := k) (s.issue (encode (.shift reset bits)))
  refine ⟨_, _, hexec, hruns, rfl, rfl, hout, hoe, State.visible_congr hcfg' hoe hplat hout, fun hsetup => ?_⟩
  have hlatch := drives_take_shiftOps_latch (s.issue (encode (.shift reset bits))) hk
    (by rw [shiftSetup_length]; exact hsetup)
  simp [State.chainPhase, hlatch]

end Sys2Proof.Machine
end

section
/-! PROOF. Decoding and encoding agree (30_encoding.md R72, R73, R76, R78), against the opcode map (R75) and the
reserved encodings (R77). -/

namespace Sys2Proof

/-! ### Decode of encode -/

/-- The fields of a CONSTRUCT header (R72). -/
theorem constructHeader_fields (hasOE hasMR : Bit) (n : Nat) :
    (Instr.construct hasOE hasMR n).header.reserved = 0#2 ∧ (Instr.construct hasOE hasMR n).header.op = 0#3 ∧
      (Instr.construct hasOE hasMR n).header.flagR = false ∧ (Instr.construct hasOE hasMR n).header.flagO = hasOE ∧
      (Instr.construct hasOE hasMR n).header.flagM = hasMR := by
  simp only [Instr.header]; revert hasOE hasMR; decide

/-- The fields of a SHIFT header (R72). -/
theorem shiftHeader_fields (reset : Bit) (bits : List Bit) :
    (Instr.shift reset bits).header.reserved = 0#2 ∧ (Instr.shift reset bits).header.op = 4#3 ∧
      (Instr.shift reset bits).header.flagR = reset ∧ (Instr.shift reset bits).header.flagO = false ∧
      (Instr.shift reset bits).header.flagM = false := by
  simp only [Instr.header]; revert reset; decide

/-- The record of a command decodes to it, whatever its operands. -/
theorem decode_encode (i : Instr) : decode (encode i) = .ok i := by
  cases i with
  | construct hasOE hasMR chipCount =>
    obtain ⟨hres, hop, hr, ho, hm⟩ := constructHeader_fields hasOE hasMR chipCount
    simp [decode, decodeConstruct, encode, hres, hop, hr, ho, hm]
  | enableOutput => rfl
  | disableOutput => rfl
  | isOutputEnabled => rfl
  | shift reset bits =>
    obtain ⟨hres, hop, hr, ho, hm⟩ := shiftHeader_fields reset bits
    simp [decode, decodeShift, encode, hres, hop, hr, ho, hm]

/-- The records that decode are the encodings: a statement about the decoder is one about the encoder. -/
theorem decode_ok_iff (c : Command) (i : Instr) : decode c = .ok i ↔ encode i = c :=
  ⟨encode_of_decode, fun h => h ▸ decode_encode i⟩

/-- Settles O18. -/
theorem decodeInvertsEncode : Obligations.DecodeInvertsEncode :=
  ⟨decode_encode, fun _ _ => encode_of_decode⟩

/-- Settles O19: each record is the encoding of its command. -/
theorem specRecordsDecode : Obligations.SpecRecordsDecode :=
  ⟨decode_encode (.construct true false 2), decode_encode (.construct false true 1), decode_encode .enableOutput,
    decode_encode .disableOutput, decode_encode .isOutputEnabled, decode_encode (.shift false [true, false]),
    decode_encode (.shift true [true])⟩

/-! ### The opcode map -/

/-- Two rows that select one header agree on every bit both their masks cover. -/
theorem OpcodeRow.selects_agree {a b : OpcodeRow} {h : Header} (ha : a.selects h = true) (hb : b.selects h = true) :
    a.pattern &&& b.mask = b.pattern &&& a.mask := by
  rw [← eq_of_beq ha, ← eq_of_beq hb, BitVec.and_assoc, BitVec.and_assoc, BitVec.and_comm a.mask]

/-- Two different rows of the opcode map differ on a bit both their masks cover. -/
theorem opcodeMap_agree : ∀ a ∈ opcodeMap, ∀ b ∈ opcodeMap, a.pattern &&& b.mask = b.pattern &&& a.mask → a = b := by
  decide

/-- Settles O20: no header can meet two rows on a bit where they differ; the headers in use are found among all 256. -/
theorem opcodeMapIsDisjoint : Obligations.OpcodeMapIsDisjoint :=
  ⟨rfl, fun _ a ha b hb hsa hsb => opcodeMap_agree a ha b hb (OpcodeRow.selects_agree hsa hsb), by decide⟩

/-- Every command's record selects its own row alone and fits its format. -/
theorem encodesToRow (i : Instr) : Laws.EncodesToRow.Statement i := by
  cases i with
  | construct hasOE hasMR chipCount => exact Laws.EncodesToRow.construct hasOE hasMR chipCount
  | enableOutput => exact Laws.EncodesToRow.enableOutput
  | disableOutput => exact Laws.EncodesToRow.disableOutput
  | isOutputEnabled => exact Laws.EncodesToRow.isOutputEnabled
  | shift reset bits => exact Laws.EncodesToRow.shift reset bits

/-- The opcode map has a row for every command, which its record fits. -/
theorem exists_row_of_encode (i : Instr) :
    ∃ row ∈ opcodeMap,
      row.mnemonic = i.mnemonic ∧ row.selects (encode i).hdr = true ∧ row.format.admits (encode i) = true := by
  obtain ⟨hrows, hadmits⟩ := encodesToRow i
  obtain ⟨row, hrow, hname⟩ := List.mem_map.mp (hrows ▸ List.mem_singleton_self i.mnemonic)
  obtain ⟨hmem, hsel⟩ := List.mem_filter.mp hrow
  exact ⟨row, hmem, hname, hsel, hadmits row hmem hsel⟩

/-- A header of CONSTRUCT's row is its pattern of R72 with the two flags it carries. -/
theorem Header.eq_of_constructRow (h : Header) (n : Nat) (hs : (h &&& 0xCF#8) = 0x00#8) :
    (Instr.construct h.flagO h.flagM n).header = h := by
  revert h; simp only [Instr.header]; decide

/-- A header of SHIFT's row is its pattern of R72 with the flag it carries. -/
theorem Header.eq_of_shiftRow (h : Header) (bits : List Bit) (hs : (h &&& 0xF7#8) = 0x04#8) :
    (Instr.shift h.flagR bits).header = h := by
  revert h; simp only [Instr.header]; decide

/-- A record that fits a row of format NONE is the record of the command whose header the row names. -/
theorem encode_eq_of_noneRow {i : Instr} {c : Command} (hcount : (encode i).count = 0) (hbits : (encode i).bits = [])
    (hhdr : c.hdr &&& 0xFF#8 = i.header) (hadm : Format.none.admits c = true) : encode i = c := by
  have ⟨hc, hb⟩ : c.count = 0 ∧ c.bits = [] := by simpa [Format.admits] using hadm
  have hfull : c.hdr &&& 0xFF#8 = c.hdr := BitVec.and_allOnes
  exact encode_eq (hhdr.symm.trans hfull) (hcount.trans hc.symm) (hbits.trans hb.symm)

/-- A record that fits a row of the opcode map is the record of a command of that row. -/
theorem exists_encode_of_row {row : OpcodeRow} {c : Command} (hrow : row ∈ opcodeMap)
    (hsel : row.selects c.hdr = true) (hadm : row.format.admits c = true) :
    ∃ i, encode i = c ∧ i.mnemonic = row.mnemonic := by
  have hpat : c.hdr &&& row.mask = row.pattern := eq_of_beq hsel
  simp only [opcodeMap, List.mem_cons, List.not_mem_nil, or_false] at hrow
  rcases hrow with rfl | rfl | rfl | rfl | rfl
  · have hb : c.bits = [] := by simpa [Format.admits] using hadm
    exact ⟨_, encode_eq (Header.eq_of_constructRow c.hdr c.count hpat) rfl hb.symm, rfl⟩
  · exact ⟨.enableOutput, encode_eq_of_noneRow rfl rfl hpat hadm, rfl⟩
  · exact ⟨.disableOutput, encode_eq_of_noneRow rfl rfl hpat hadm, rfl⟩
  · exact ⟨.isOutputEnabled, encode_eq_of_noneRow rfl rfl hpat hadm, rfl⟩
  · have hc : c.count = 0 := by simpa [Format.admits] using hadm
    exact ⟨_, encode_eq (Header.eq_of_shiftRow c.hdr c.bits hpat) hc.symm rfl, rfl⟩

/-- Settles O21: on both sides the record is the encoding of a command. -/
theorem decoderFollowsTheOpcodeMap : Obligations.DecoderFollowsTheOpcodeMap := by
  intro c m
  constructor
  · rintro ⟨i, hd, rfl⟩
    exact encode_of_decode hd ▸ exists_row_of_encode i
  · rintro ⟨row, hrow, rfl, hsel, hadm⟩
    obtain ⟨i, he, hm⟩ := exists_encode_of_row hrow hsel hadm
    exact ⟨i, (decode_ok_iff c i).mpr he, hm⟩

/-! ### The reserved encodings -/

theorem not_decodes_iff_rejected (c : Command) : (¬∃ i, decode c = .ok i) ↔ ∃ why, decode c = .rejected why := by
  cases decode c <;> simp

theorem decodeConstruct_rejected_iff (c : Command) :
    (∃ why, decodeConstruct c = .rejected why) ↔ c.hdr.flagR = true ∨ c.bits ≠ [] := by
  unfold decodeConstruct
  split_ifs <;> simp_all

theorem decodeNone_rejected_iff (i : Instr) (c : Command) :
    (∃ why, decodeNone i c = .rejected why) ↔
      ((c.hdr.flagR = true ∨ c.hdr.flagO = true) ∨ c.hdr.flagM = true) ∨ c.count ≠ 0 ∨ c.bits ≠ [] := by
  unfold decodeNone
  split_ifs <;> simp_all

theorem decodeShift_rejected_iff (c : Command) :
    (∃ why, decodeShift c = .rejected why) ↔ (c.hdr.flagO = true ∨ c.hdr.flagM = true) ∨ c.count ≠ 0 := by
  unfold decodeShift
  split_ifs <;> simp_all

theorem Header.op_toNat (h : Header) : h.op.toNat = h.toNat % 8 := by
  simp [Header.op, BitVec.extractLsb'_toNat]

theorem Header.reserved_eq_zero_iff (h : Header) : h.reserved = 0#2 ↔ h.toNat < 64 := by
  revert h; decide

end Sys2Proof

namespace Sys2Proof.Machine

/-- The reserved encodings of R77 in the header's fields of R71. -/
theorem reserved_iff_fields (c : Command) :
    Reserved c ↔ c.hdr.reserved ≠ 0#2 ∨ c.hdr.op.toNat = 5 ∨ c.hdr.op.toNat = 6 ∨ c.hdr.op.toNat = 7 ∨
      (c.hdr.flagR = true ∧ c.hdr.op.toNat ≠ 4) ∨
      ((c.hdr.flagO = true ∨ c.hdr.flagM = true) ∧ c.hdr.op.toNat ≠ 0) ∨
      (c.count ≠ 0 ∧ c.hdr.op.toNat ≠ 0) ∨ (c.bits ≠ [] ∧ c.hdr.op.toNat ≠ 4) := by
  rw [Header.op_toNat, Ne, Header.reserved_eq_zero_iff, not_lt]
  unfold Reserved Header.flagR Header.flagO Header.flagM BitVec.getLsbD
  tauto

/-- The reserved encodings are exactly the records the decoder rejects, OP by OP (R76, R77). -/
theorem reserved_iff_rejected (c : Command) : Reserved c ↔ ∃ why, decode c = .rejected why := by
  rw [reserved_iff_fields]
  unfold decode
  split_ifs with hres
  · simp [hres]
  rw [not_not] at hres
  have hop : c.hdr.op.toNat < 8 := c.hdr.op.isLt
  split
  case h_1 hn => simp [decodeConstruct_rejected_iff, hn, hres]
  case h_2 hn | h_3 hn | h_4 hn => simp [decodeNone_rejected_iff, hn, hres, or_assoc]
  case h_5 hn => simp [decodeShift_rejected_iff, hn, hres]
  case h_6 h0 h1 h2 h3 h4 =>
    have hopReserved : c.hdr.op.toNat = 5 ∨ c.hdr.op.toNat = 6 ∨ c.hdr.op.toNat = 7 := by
      rw [imp_false] at h0 h1 h2 h3 h4
      omega
    exact iff_of_true (.inr (hopReserved.imp_right (Or.imp_right .inl))) ⟨_, rfl⟩

/-- A rejected record is refused as `IllegalCommand`, where no earlier check of R167 answers. -/
theorem takeCommand_of_rejected {c : Command} {why : Reject} {s : State} (h : decode c = .rejected why)
    (hp : s.seq.phase = .unconfigured ∨ s.seq.phase = .idle) :
    takeCommand c s = .next (refuse .illegalCommand (s.issue c)) := by
  unfold takeCommand
  rw [phaseGate_open c s _ hp, h]

/-- Settles O22. -/
theorem reservedEncodingsAreRefused : Obligations.ReservedEncodingsAreRefused := by
  intro s c
  refine ⟨(reserved_iff_rejected c).trans (not_decodes_iff_rejected c).symm, fun hr hp => ?_⟩
  obtain ⟨why, hd⟩ := (reserved_iff_rejected c).mp hr
  refine ⟨_, takeCommand_of_rejected hd hp, ?_, fun m => mem_insertCause m .illegalCommand s.marks, rfl⟩
  have hhist : (refuse .illegalCommand (s.issue c)).hist = s.hist ++ [.cmd c, .resp (.ofCause .illegalCommand)] :=
    List.append_assoc ..
  exact congrArg (fun hist => { refuse .illegalCommand (s.issue c) with hist := hist }) hhist

end Sys2Proof.Machine
end

section
/-! PROOF. CONSTRUCT: what a command does where its phase decides alone, which chip counts are refused, and the three
statements of 40_construct.md. -/

namespace Sys2Proof.Machine

/-! ### A command in a phase that answers for it -/

/-- In BUSY every command is the fault (60_exceptions.md R165). -/
theorem exec_of_busy (i : Instr) {s : State} (hp : s.seq.phase = .busy) :
    exec i s = .next (concurrentCommand (s.issue (encode i))) := by
  simp [exec_eq_beginCommand, beginCommand, phaseGate, hp]

/-- In DESTROYED every command is refused (60_exceptions.md R164). -/
theorem exec_of_destroyed (i : Instr) {s : State} (hp : s.seq.phase = .destroyed) :
    exec i s = .next (refuse .destroyed (s.issue (encode i))) := by
  simp [exec_eq_beginCommand, beginCommand, phaseGate, hp]

/-- A command of the wrong one of UNCONFIGURED and IDLE is refused (60_exceptions.md R167, check 5). -/
theorem exec_of_phaseRefusal {i : Instr} {s : State} {cause : Cause}
    (hp : s.seq.phase = .unconfigured ∨ s.seq.phase = .idle)
    (h : phaseRefusal i.isConstruct s.seq.phase = some cause) :
    exec i s = .next (refuse cause (s.issue (encode i))) := by
  rw [exec_eq_beginCommand, beginCommand, phaseGate_open _ _ _ hp, h]

/-- A command of the right one of UNCONFIGURED and IDLE runs its own rule. -/
theorem exec_of_right_phase (i : Instr) (s : State)
    (h : s.seq.phase = .unconfigured ∧ i.isConstruct = true ∨ s.seq.phase = .idle ∧ i.isConstruct = false) :
    exec i s = .next (ownRule i (s.issue (encode i))) := by
  rw [exec_eq_beginCommand, beginCommand_open i s _ h]

/-- A refusal records the command and then its response. -/
theorem refuse_issue_hist (cause : Cause) (c : Command) (s : State) :
    (refuse cause (s.issue c)).hist = s.hist ++ [.cmd c, .resp (.ofCause cause)] :=
  List.append_assoc ..

/-! ### CONSTRUCT in UNCONFIGURED -/

/-- The counts that `badChipCount` refuses, as R102 words them. -/
theorem badChipCount_iff (p : Platform) (n : Nat) :
    badChipCount p n = true ↔ n = 0 ∨ ∃ most, p.maxChips = some most ∧ most < n := by
  unfold badChipCount
  split
  next hzero => simp [hzero]
  next hpos => split <;> simp [*]

theorem badChipCount_eq_false {p : Platform} {n : Nat} (hpos : 1 ≤ n)
    (hmost : ∀ most, p.maxChips = some most → n ≤ most) : badChipCount p n = false := by
  rw [← Bool.not_eq_true, badChipCount_iff]
  rintro (hzero | ⟨most, hp, hlt⟩)
  · omega
  · exact absurd (hmost most hp) (Nat.not_le.mpr hlt)

theorem exec_construct_of_bad_count (o m : Bit) {n : Nat} {s : State} (hp : s.seq.phase = .unconfigured)
    (hn : badChipCount s.platform n = true) :
    exec (.construct o m n) s = .next (refuse .badChipCount (s.issue (encode (.construct o m n)))) := by
  rw [exec_of_right_phase _ s (.inl ⟨hp, rfl⟩), ownRule, State.issue_platform, if_pos hn]

theorem exec_construct_of_good_count (o m : Bit) {n : Nat} {s : State} (hp : s.seq.phase = .unconfigured)
    (hn : badChipCount s.platform n = false) :
    exec (.construct o m n) s =
      .next (complete .success (configure o m n (s.issue (encode (.construct o m n))))) := by
  rw [exec_of_right_phase _ s (.inl ⟨hp, rfl⟩), ownRule, State.issue_platform, if_neg (by simp [hn])]

theorem unknowns_getElem? {n i : Nat} (h : i < n) : (unknowns n)[i]? = some .unknown :=
  List.getElem?_replicate_of_lt h

/-- OE exists exactly where the configuration says so (10_state.md R26). -/
theorem State.lineLevel_oe {s : State} {c : Cfg} (h : s.cfg = some c) :
    s.lineLevel .oe = if c.hasOE then some s.line.oe else none := by
  simp [State.lineLevel, State.hasLine, Lines.get, h]

/-- MR exists exactly where the configuration says so (10_state.md R26). -/
theorem State.lineLevel_mr {s : State} {c : Cfg} (h : s.cfg = some c) :
    s.lineLevel .mr = if c.hasMR then some s.line.mr else none := by
  simp [State.lineLevel, State.hasLine, Lines.get, h]

/-! ### The statements -/

/-- Settles O27. -/
theorem constructConfigures : Obligations.ConstructConfigures := by
  intro s o m n hp hpos hmost
  have hexec := exec_construct_of_good_count o m hp (badChipCount_eq_false hpos hmost)
  refine ⟨_, hexec, rfl, ⟨rfl, rfl, rfl, rfl⟩, rfl, fun i hi => ?stages, ?sr, ?out, ?hist,
    State.lineLevel_oe (c := ⟨n, o, m⟩) rfl, State.lineLevel_mr (c := ⟨n, o, m⟩) rfl, rfl, rfl, rfl, rfl⟩
  case stages => exact ⟨unknowns_getElem? hi, unknowns_getElem? hi⟩
  case sr | out => exact unknowns_length (n * 8)
  case hist => exact List.append_assoc ..

/-- Settles O28. -/
theorem secondConstructIsRefused : Obligations.SecondConstructIsRefused := by
  intro s o m n
  refine ⟨fun hp => ?idle, fun hp => ?destroyed, fun hp => ?busy⟩
  case idle =>
    have hexec : exec (.construct o m n) s = .next (refuse .reconfigure (s.issue (encode (.construct o m n)))) :=
      exec_of_phaseRefusal (.inr hp) (by rw [hp]; rfl)
    exact ⟨_, hexec, rfl, rfl, rfl, rfl, fun x => mem_insertCause x .reconfigure s.marks, refuse_issue_hist ..⟩
  case destroyed => exact ⟨_, exec_of_destroyed _ hp, rfl, (mem_insertCause ..).mpr (.inl rfl)⟩
  case busy => exact ⟨_, exec_of_busy _ hp, rfl, (mem_insertCause ..).mpr (.inl rfl)⟩

/-- Settles O29. -/
theorem badChipCountIsRefused : Obligations.BadChipCountIsRefused := by
  intro s o m n hp hbad
  have hexec := exec_construct_of_bad_count o m hp ((badChipCount_iff s.platform n).mpr hbad)
  exact ⟨_, hexec, rfl, rfl, rfl, rfl, fun x => mem_insertCause x .badChipCount s.marks, refuse_issue_hist ..⟩

end Sys2Proof.Machine
end

section
/-! PROOF. The three OE commands: each is its read of OE and what that read adds; ENABLE_OUTPUT and DISABLE_OUTPUT are
one command with the level it sets (41_output_control.md). -/

namespace Sys2Proof.Machine

/-! ### The read of OE -/

@[simp] theorem State.issue_oeReads (c : Command) (s : State) : (s.issue c).oeReads = s.oeReads := rfl

theorem levelOf_injective : Function.Injective levelOf := by decide

/-- OE at a known level reads as that level. -/
theorem State.oeReads_of_line {s : State} {v : Bit} (h : s.line.oe = levelOf v) : s.oeReads = v := by
  cases v <;> simp [State.oeReads, h]

/-- A known OE line is at the level it reads as. -/
theorem State.line_oe_of_known {s : State} (h : s.line.oe ≠ .unknown) : s.line.oe = levelOf s.oeReads := by
  cases hl : s.line.oe with
  | zero => rw [State.oeReads_of_line (v := false) hl]; rfl
  | one => rw [State.oeReads_of_line (v := true) hl]; rfl
  | unknown => exact absurd hl h

/-- `PinRead(OE)` returns `State.oeReads`, leaves OE there, and takes a draw only where OE was unknown (R52). -/
theorem pinRead_oe (s : State) :
    ∃ d, s.draws ≤ d ∧ (s.line.oe ≠ .unknown → d = s.draws) ∧
      pinRead .oe s = (s.oeReads,
        { s with line := s.line.set .oe (levelOf s.oeReads), draws := d }.record (.read .oe s.oeReads)) := by
  by_cases hl : s.line.oe = .unknown
  · exact ⟨s.draws + 1, Nat.le_succ _, (absurd hl ·), by simp [pinRead, Lines.get, State.oeReads, hl]⟩
  · have hv : s.line.get .oe = levelOf s.oeReads := State.line_oe_of_known hl
    refine ⟨s.draws, Nat.le_refl _, fun _ => rfl, ?_⟩
    rw [pinRead_known .oe _ s hv, ← hv, Lines.set_get_self]

/-- The first step of an OE command: the read, which adds its micro-ops to the list, and the advance. -/
theorem step_read_oe (i : Instr) {s : State} (hh : hostBlocks s.host = true) :
    ∃ d, s.draws ≤ d ∧ (s.line.oe ≠ .unknown → d = s.draws) ∧
      step (enterBusy i [.read .oe] s) = .next (advance (readResponse (some i) s.oeReads)
        (((s.afterRead .oe s.oeReads s.draws).withDraws d).withSeq
          { phase := .busy, ops := .read .oe :: followUp (some i) s.oeReads, k := 0, cmd := some i,
            resp := s.seq.resp })) := by
  obtain ⟨d, hd, hknown, hread⟩ := pinRead_oe (enterBusy i [.read .oe] s)
  refine ⟨d, hd, hknown, ?_⟩
  rw [step_busy (s := enterBusy i [.read .oe] s) rfl hh]
  simp only [microStep, enterBusy_seq, List.getElem?_cons_zero, performRead, hread]
  rfl

/-- An advance short of the end of the list moves `SEQ.K` (R31). -/
theorem advance_withSeq_inside (ok : Response) (s : State) {q : Sequencer} (h : q.k + 1 < q.ops.length) :
    advance ok (s.withSeq q) = s.withSeq { q with k := q.k + 1 } :=
  if_pos h

/-- An advance at the end of the list completes the command (R31). -/
theorem advance_withSeq_last (ok : Response) (s : State) {q : Sequencer} (h : q.ops.length ≤ q.k + 1) :
    advance ok (s.withSeq q) = complete ok s :=
  if_neg (Nat.not_lt.mpr h)

/-- The last step of a command that ends in a write: the write, and the response `Ok` (R31). -/
theorem step_last_write {s : State} {q : Sequencer} {r : Role} {v : Bit} (hp : q.phase = .busy)
    (hop : q.ops[q.k]? = some (.write r v)) (hlast : q.ops.length ≤ q.k + 1) (hf : s.WritesSucceed)
    (hh : hostBlocks s.host = true) :
    ∃ d, s.draws ≤ d ∧ (s.platform.pinWritesFallible = false → d = s.draws) ∧
      step (s.withSeq q) = .next (complete .success ((drive r v s).withDraws d)) := by
  obtain ⟨d, hd, hinf, hwrite⟩ := microStep_write_succeeds (s := s.withSeq q) hop hf
  refine ⟨d, hd, hinf, ?_⟩
  rw [step_busy (s := s.withSeq q) hp hh, hwrite, drive_withSeq, State.withSeq_withDraws,
    advance_withSeq_last _ _ hlast]

/-- A read adds no micro-op, or one write to OE after which the command answers `Ok` (R31). -/
theorem followUp_cases (i : Option Instr) (v : Bit) :
    followUp i v = [] ∨ ∃ w, followUp i v = [.write .oe w] ∧ readResponse i v = .success := by
  cases i with
  | none => exact .inl rfl
  | some i =>
    cases i with
    | construct | isOutputEnabled | shift => exact .inl rfl
    | enableOutput =>
      cases v with
      | false => exact .inl rfl
      | true => exact .inr ⟨false, rfl, rfl⟩
    | disableOutput =>
      cases v with
      | false => exact .inr ⟨true, rfl, rfl⟩
      | true => exact .inl rfl

/-! ### The run of an OE command -/

/-- The state in which the command `i`, which begins with a read of OE, ends when it is taken in `s`: the read, the
write it adds, if any, and the response; `d` draws have been taken. -/
def State.afterOE (i : Instr) (d : Nat) (s : State) : State :=
  complete (readResponse (some i) s.oeReads)
    ((drives (followUp (some i) s.oeReads) ((s.issue (encode i)).afterRead .oe s.oeReads s.draws)).withDraws d)

section
variable (i : Instr) (d : Nat) (s : State)

theorem State.afterOE_ended : (s.afterOE i d).EndedWith (readResponse (some i) s.oeReads) := ⟨rfl, rfl, rfl, rfl⟩

theorem State.afterOE_setting : s.SameSetting (s.afterOE i d) := by
  obtain ⟨hcfg, -, hmarks, hplat, -, hhost, -⟩ := drives_frame (followUp (some i) s.oeReads)
    ((s.issue (encode i)).afterRead .oe s.oeReads s.draws)
  exact ⟨hcfg, hmarks, hplat, hhost⟩

theorem State.afterOE_hist :
    (s.afterOE i d).hist = s.hist ++ [Event.cmd (encode i), Event.read .oe s.oeReads] ++
      writeEvents (followUp (some i) s.oeReads) ++ [Event.resp (readResponse (some i) s.oeReads)] := by
  obtain ⟨-, -, -, -, -, -, hhist⟩ := drives_frame (followUp (some i) s.oeReads)
    ((s.issue (encode i)).afterRead .oe s.oeReads s.draws)
  simp [State.afterOE, hhist]

end

/-- An OE command in progress runs to its end: the read, and one more step if that adds a write. -/
theorem runs_oe (i : Instr) {s : State} (hf : s.WritesSucceed) (hh : hostBlocks s.host = true) :
    ∃ d, s.draws ≤ d ∧
      (s.platform.pinWritesFallible = false ∨ followUp (some i) s.oeReads = [] → s.line.oe ≠ .unknown → d = s.draws) ∧
      runs ((followUp (some i) s.oeReads).length + 1) (enterBusy i [.read .oe] (s.issue (encode i))) =
        .next (s.afterOE i d) := by
  obtain ⟨d, hd, hknown, hread⟩ := step_read_oe i (s := s.issue (encode i)) hh
  rw [State.issue_oeReads] at hread
  rcases followUp_cases (some i) s.oeReads with hadds | ⟨w, hadds, hok⟩
  · rw [hadds, advance_withSeq_last _ _ (by simp)] at hread
    refine ⟨d, hd, fun _ => hknown, ?_⟩
    rw [hadds, List.length_nil, runs_succ 0 hread, State.afterOE, hadds]
    rfl
  · rw [hadds, advance_withSeq_inside _ _ (by simp)] at hread
    obtain ⟨e, he, hinf, hwrite⟩ := step_last_write (r := .oe) (v := w)
      (s := ((s.issue (encode i)).afterRead .oe s.oeReads s.draws).withDraws d)
      (q := { phase := .busy, ops := [.read .oe, .write .oe w], k := 1, cmd := some i, resp := s.seq.resp })
      rfl rfl (Nat.le_refl 2) (hf.later rfl hd) hh
    refine ⟨e, Nat.le_trans hd he, fun h hk => ?_, ?_⟩
    · exact (hinf (h.resolve_right (by simp [hadds]))).trans (hknown hk)
    · rw [hadds, List.length_singleton, runs_succ 1 hread, State.afterOE, hadds, hok, drives, drives]
      exact runs_succ 0 hwrite

/-! ### The commands -/

/-- The three OE commands. -/
def IsOECommand (i : Instr) : Prop := i = .enableOutput ∨ i = .disableOutput ∨ i = .isOutputEnabled

/-- An OE command on a ready controller with an OE line is accepted, its read the only micro-op (R110 to R112). -/
theorem exec_oe {i : Instr} {s : State} {c : Cfg} (hs : s.Ready c) (hoe : c.hasOE = true) (hi : IsOECommand i) :
    exec i s = .next (enterBusy i [.read .oe] (s.issue (encode i))) := by
  have hmanaged : (s.issue (encode i)).hasOE = true := by simpa [State.hasOE, hs.configured] using hoe
  have hown : ownRule i = beginOE i := by rcases hi with rfl | rfl | rfl <;> rfl
  have hplain : i.isConstruct = false := by rcases hi with rfl | rfl | rfl <;> rfl
  rw [exec_of_right_phase i s (.inr ⟨hs.idle, hplain⟩), hown, beginOE, if_pos hmanaged]

/-- A controller at rest after a command of a ready one is ready again. -/
theorem State.Ready.after {s t : State} {c : Cfg} {r : Response} (h : s.Ready c) (hend : t.EndedWith r)
    (hset : s.SameSetting t) (hd : s.draws ≤ t.draws) : t.Ready c :=
  ⟨hend.idle, hset.cfg.trans h.configured, h.noFailure.later hset.platform hd, hset.host ▸ h.blocks⟩

theorem State.SameSetting.trans {s t u : State} (h : s.SameSetting t) (h' : t.SameSetting u) : s.SameSetting u :=
  ⟨h'.cfg.trans h.cfg, h'.marks.trans h.marks, h'.platform.trans h.platform, h'.host.trans h.host⟩

/-- The command that sets OE to `w`: DISABLE_OUTPUT for 1, ENABLE_OUTPUT for 0. -/
def oeSetter (w : Bit) : Instr := if w then .disableOutput else .enableOutput

theorem isOECommand_oeSetter (w : Bit) : IsOECommand (oeSetter w) := by
  cases w with
  | false => exact .inl rfl
  | true => exact .inr (.inl rfl)

/-- The command that sets OE to `w` writes exactly when it read the other level (R113). -/
theorem followUp_oeSetter (w v : Bit) : followUp (some (oeSetter w)) v = if v = w then [] else [.write .oe w] := by
  cases w <;> cases v <;> rfl

@[simp] theorem readResponse_oeSetter (w v : Bit) : readResponse (some (oeSetter w)) v = .success := by
  cases w <;> rfl

section
variable (w : Bit) (d : Nat) (s : State)

theorem State.afterOE_oeSetter_ended : (s.afterOE (oeSetter w) d).EndedWith .success := by
  simpa using s.afterOE_ended (oeSetter w) d

theorem State.afterOE_oeSetter_line : (s.afterOE (oeSetter w) d).line = { s.line with oe := levelOf w } := by
  unfold State.afterOE
  rw [followUp_oeSetter]
  split
  next hv => rw [hv]; rfl
  next => rfl

/-- The write of a command that sets OE is no edge, so it leaves the chain to `MrClear` (60_exceptions.md R174). -/
theorem State.afterOE_oeSetter_chain :
    (s.afterOE (oeSetter w) d).chain = if s.oeReads = w then s.chain else s.chain.mrClear s.mrEff := by
  unfold State.afterOE
  rw [followUp_oeSetter]
  split
  next => rfl
  next hv =>
    have hmoved : levelOf s.oeReads ≠ levelOf w := levelOf_injective.ne hv
    have hchain := drive_chain_of_no_edge .oe w ((s.issue (encode (oeSetter w))).afterRead .oe s.oeReads s.draws)
      hmoved (.inr (.inl rfl))
    rw [drive_mrEff_of_ne_mr _ _ (by decide)] at hchain
    exact hchain

theorem State.afterOE_oeSetter_hist :
    (s.afterOE (oeSetter w) d).hist = s.hist ++ [Event.cmd (encode (oeSetter w)), Event.read .oe s.oeReads] ++
      (if s.oeReads = w then [] else [Event.write .oe w]) ++ [Event.resp .success] := by
  rw [State.afterOE_hist, followUp_oeSetter, readResponse_oeSetter]
  split <;> rfl

end

/-- With a managed OE line the outputs are the latches gated by that line (10_state.md R29, R36). -/
theorem State.visible_of_managed {s : State} {c : Cfg} (hcfg : s.cfg = some c) (hoe : c.hasOE = true) :
    s.visible = s.chain.out.map (gate s.line.oe) := by
  simp [State.visible, State.oeEff, effective, hcfg, hoe]

/-- After the command that sets OE to `w` the outputs are the same latches gated by `w` (60_exceptions.md R183). -/
theorem State.afterOE_oeSetter_visible (w : Bit) (d : Nat) {s : State} {c : Cfg} (hcfg : s.cfg = some c)
    (hoe : c.hasOE = true) : (s.afterOE (oeSetter w) d).visible = s.chain.out.map (gate (levelOf w)) := by
  have hout : (s.afterOE (oeSetter w) d).chain.out = s.chain.out := by
    rw [State.afterOE_oeSetter_chain]; split <;> simp
  rw [State.visible_of_managed ((State.afterOE_setting ..).cfg.trans hcfg) hoe, hout, State.afterOE_oeSetter_line]

/-! ### The contracts of the commands -/

/-- The contract of the command that sets OE to `w`, in the terms of R110 and R111. -/
theorem oeSetter_runs (w : Bit) {s : State} {c : Cfg} (hs : s.Ready c) (hoe : c.hasOE = true) :
    ∃ d, s.draws ≤ d ∧ (s.platform.pinWritesFallible = false → s.line.oe ≠ .unknown → d = s.draws) ∧
      exec (oeSetter w) s = .next (enterBusy (oeSetter w) [.read .oe] (s.issue (encode (oeSetter w)))) ∧
      runs (if s.oeReads = w then 1 else 2) (enterBusy (oeSetter w) [.read .oe] (s.issue (encode (oeSetter w)))) =
        .next (s.afterOE (oeSetter w) d) := by
  obtain ⟨d, hd, hdraws, hruns⟩ := runs_oe (oeSetter w) hs.noFailure hs.blocks
  rw [followUp_oeSetter] at hruns
  refine ⟨d, hd, fun h => hdraws (.inl h), exec_oe hs hoe (isOECommand_oeSetter w), ?_⟩
  rw [← hruns]
  split <;> rfl

/-- After the command that sets OE to `w`, OE reads `w` and the controller is ready. -/
theorem State.Ready.afterOE_oeSetter {s : State} {c : Cfg} (hs : s.Ready c) (w : Bit) {d : Nat} (hd : s.draws ≤ d) :
    (s.afterOE (oeSetter w) d).Ready c ∧ (s.afterOE (oeSetter w) d).oeReads = w :=
  ⟨hs.after (State.afterOE_ended ..) (State.afterOE_setting ..) hd,
    State.oeReads_of_line (by rw [State.afterOE_oeSetter_line])⟩

@[simp] theorem State.afterOE_isOutputEnabled_line (d : Nat) (s : State) :
    (s.afterOE .isOutputEnabled d).line = { s.line with oe := levelOf s.oeReads } := rfl

/-- The contract of IS_OUTPUT_ENABLED, in the terms of R112: one step, and no draw but the read's. -/
theorem isOutputEnabled_runs {s : State} {c : Cfg} (hs : s.Ready c) (hoe : c.hasOE = true) :
    ∃ d, s.draws ≤ d ∧ (s.line.oe ≠ .unknown → d = s.draws) ∧
      exec .isOutputEnabled s = .next (enterBusy .isOutputEnabled [.read .oe] (s.issue (encode .isOutputEnabled))) ∧
      runs 1 (enterBusy .isOutputEnabled [.read .oe] (s.issue (encode .isOutputEnabled))) =
        .next (s.afterOE .isOutputEnabled d) := by
  obtain ⟨d, hd, hdraws, hruns⟩ := runs_oe .isOutputEnabled hs.noFailure hs.blocks
  exact ⟨d, hd, hdraws (.inr rfl), exec_oe hs hoe (.inr (.inr rfl)), hruns⟩

/-! ### The statements -/

/-- Settles O30: the contract of `oeSetter` at 0. -/
theorem enableOutputRuns : Obligations.EnableOutputRuns := by
  intro s c hs hoe
  obtain ⟨d, -, hdraws, hexec, hruns⟩ := oeSetter_runs false hs hoe
  have hvisible := State.afterOE_oeSetter_visible false d hs.configured hoe
  have hhist := State.afterOE_oeSetter_hist false d s
  have hchain := State.afterOE_oeSetter_chain false d s
  simp only [← Bool.not_eq_true, ite_not] at hruns hhist hchain
  exact ⟨_, _, hexec, rfl, rfl, rfl, rfl, rfl, rfl, hruns, State.afterOE_ended .., State.afterOE_oeSetter_line ..,
    hhist, hchain, State.afterOE_setting .., hdraws, hvisible⟩

/-- Settles O31: the contract of `oeSetter` at 1. -/
theorem disableOutputRuns : Obligations.DisableOutputRuns := by
  intro s c hs hoe
  obtain ⟨d, -, hdraws, hexec, hruns⟩ := oeSetter_runs true hs hoe
  exact ⟨_, _, hexec, rfl, rfl, rfl, rfl, rfl, rfl, hruns, State.afterOE_ended .., State.afterOE_oeSetter_line ..,
    State.afterOE_oeSetter_hist .., State.afterOE_oeSetter_chain .., State.afterOE_setting .., hdraws,
    State.afterOE_oeSetter_visible true d hs.configured hoe⟩

/-- Settles O32: the read adds no micro-op, so the run is one step. -/
theorem isOutputEnabledRuns : Obligations.IsOutputEnabledRuns := by
  intro s c hs hoe
  obtain ⟨d, -, hdraws, hexec, hruns⟩ := isOutputEnabled_runs hs hoe
  have hhist : (s.afterOE .isOutputEnabled d).hist = s.hist ++
      [Event.cmd (encode .isOutputEnabled), Event.read .oe s.oeReads, Event.resp (.answer !s.oeReads)] := by
    simpa [followUp, writeEvents, readResponse] using State.afterOE_hist .isOutputEnabled d s
  refine ⟨_, _, hexec, rfl, rfl, rfl, rfl, rfl, rfl, hruns, State.afterOE_ended .., rfl, fun hk => ?_, hhist, rfl,
    State.afterOE_setting .., hdraws⟩
  rw [State.afterOE_isOutputEnabled_line, ← State.line_oe_of_known hk]

/-- Settles O34: the command that sets OE to `w` leaves OE reading `w`, and IS_OUTPUT_ENABLED answers the negation. -/
theorem outputControlRoundTrips : Obligations.OutputControlRoundTrips := by
  intro s c i hs hoe hi
  obtain ⟨w, rfl⟩ : ∃ w, i = oeSetter w := by
    rcases hi with rfl | rfl
    · exact ⟨false, rfl⟩
    · exact ⟨true, rfl⟩
  obtain ⟨d, hd, -, hexec, hruns⟩ := oeSetter_runs w hs hoe
  obtain ⟨hready, hreads⟩ := hs.afterOE_oeSetter w hd
  obtain ⟨e, -, -, hexec', hruns'⟩ := isOutputEnabled_runs hready hoe
  have hset := State.afterOE_setting (oeSetter w) d s
  have hset' := State.afterOE_setting .isOutputEnabled e (s.afterOE (oeSetter w) d)
  refine ⟨_, _, _, _, _, _, hexec, hruns, State.afterOE_oeSetter_ended .., hexec', hruns', ?ended, ?line, hset,
    hset.trans hset'⟩
  case ended =>
    have hended := State.afterOE_ended .isOutputEnabled e (s.afterOE (oeSetter w) d)
    rw [hreads] at hended
    cases w <;> exact hended
  case line =>
    rw [State.afterOE_isOutputEnabled_line, hreads, State.afterOE_oeSetter_line]
    cases w <;> rfl

/-! ### Blocking calls -/

/-- A blocking call to a ready controller is the step that takes the command, and then the command's run. -/
theorem runs_call {s u t : State} {i : Instr} {rest : List HostAction} {k : Nat} (hp : s.seq.phase = .idle)
    (hs : s.host = .call (encode i) :: rest) (hexec : exec i { s with host := rest } = .next u)
    (hruns : runs k u = .next t) : runs (k + 1) s = .next t := by
  rw [runs_succ k ((step_call (decode_encode i) hs (.inr hp)).trans hexec), hruns]

theorem State.Ready.withHost {s : State} {c : Cfg} (hs : s.Ready c) {rest : List HostAction}
    (hrest : hostBlocks rest = true) : State.Ready { s with host := rest } c :=
  ⟨hs.idle, hs.configured, hs.noFailure, hrest⟩

/-- A blocking call of the command that sets OE to `w`: a write if the other level was read, and then OE reads `w`. -/
theorem runs_call_oeSetter (w : Bit) {s : State} {c : Cfg} {rest : List HostAction} (hs : s.Ready c)
    (hoe : c.hasOE = true) (hrest : hostBlocks rest = true) (hhost : s.host = .call (encode (oeSetter w)) :: rest) :
    ∃ k t, runs k s = .next t ∧ t.Ready c ∧ t.oeReads = w ∧ t.host = rest ∧ t.EndedWith .success ∧
      t.hist = s.hist ++ [Event.cmd (encode (oeSetter w)), Event.read .oe s.oeReads] ++
        (if s.oeReads = w then [] else [Event.write .oe w]) ++ [Event.resp .success] := by
  have hs' := hs.withHost hrest
  obtain ⟨d, hd, -, hexec, hruns⟩ := oeSetter_runs w hs' hoe
  obtain ⟨hready, hreads⟩ := hs'.afterOE_oeSetter w hd
  exact ⟨_, _, runs_call hs.idle hhost hexec hruns, hready, hreads, (State.afterOE_setting ..).host,
    State.afterOE_oeSetter_ended .., State.afterOE_oeSetter_hist ..⟩

/-- Two blocking calls of the command that sets OE to `w`: the second reads `w` and writes nothing (R113). -/
theorem runs_oeSetter_twice (w : Bit) {s : State} {c : Cfg} {rest : List HostAction} (hs : s.Ready c)
    (hoe : c.hasOE = true) (hrest : hostBlocks rest = true)
    (hhost : s.host = .call (encode (oeSetter w)) :: .call (encode (oeSetter w)) :: rest) :
    ∃ k t, runs k s = .next t ∧ t.host = rest ∧ t.EndedWith .success ∧
      t.hist = s.hist ++ [Event.cmd (encode (oeSetter w)), Event.read .oe s.oeReads] ++
        (if s.oeReads = w then [] else [Event.write .oe w]) ++ [Event.resp .success] ++
        [Event.cmd (encode (oeSetter w)), Event.read .oe w, Event.resp .success] := by
  obtain ⟨k, t, hruns, hready, hreads, hhost', -, hhist⟩ := runs_call_oeSetter w hs hoe rfl hhost
  obtain ⟨m, u, hruns', -, -, hrest', hended, hhist'⟩ := runs_call_oeSetter w hready hoe hrest hhost'
  refine ⟨k + m, u, (runs_add k m hruns).trans hruns', hrest', hended, ?_⟩
  rw [hhist', hreads, if_pos rfl, hhist]
  simp only [List.append_assoc, List.nil_append, List.cons_append]

/-- Settles O35: after the first call OE reads the level the command sets, so the second adds no write. -/
theorem outputControlIsIdempotent : Obligations.OutputControlIsIdempotent := by
  intro s c rest hs hoe hrest
  refine ⟨fun hhost => ?_, fun hhost => ?_⟩
  · have h := runs_oeSetter_twice false hs hoe hrest hhost
    simp only [← Bool.not_eq_true, ite_not] at h
    exact h
  · exact runs_oeSetter_twice true hs hoe hrest hhost

end Sys2Proof.Machine
end

section
/-! PROOF. The micro-op list of a SHIFT: its positions, its writes by role, and the history it leaves (42_shift.md R132,
R139, R144). -/

namespace Sys2Proof.Machine

/-- The writes after the passes: CLOCK low and LATCH high (42_shift.md R137, R138). -/
def shiftEnd : List MicroOp := [.write .clock false, .write .latch true]

theorem shiftOps_eq_setup_append (bits : List Bit) (reset : Bit) :
    shiftOps bits reset = shiftSetup reset ++ (bits.reverse.flatMap bitPass ++ shiftEnd) := by
  simp [shiftOps_eq_parts, shiftPasses, shiftEnd]

/-! ### Positions -/

/-- A list that begins with passes, from its `j`-th pass on. -/
theorem drop_passes (bits : List Bit) (rest : List MicroOp) {j : Nat} (h : j ≤ bits.length) :
    (bits.flatMap bitPass ++ rest).drop (4 * j) = (bits.drop j).flatMap bitPass ++ rest := by
  induction j generalizing bits with
  | zero => rfl
  | succ j ih =>
    cases bits with
    | nil => cases h
    | cons b bits => exact ih bits (Nat.le_of_succ_le_succ h)

section
variable (reset : Bit) (bits : List Bit)

/-- The `i`-th micro-op from the `j`-th pass on; at `j = L` there are those after the passes. -/
theorem getElem?_shiftOps {i j n : Nat} (hj : j ≤ bits.length)
    (hn : n = (if reset then 2 else 0) + 3 + 4 * j + i) :
    (shiftOps bits reset)[n]? = ((bits.reverse.drop j).flatMap bitPass ++ shiftEnd)[i]? := by
  have hsetup : (shiftSetup reset).length = (if reset then 2 else 0) + 3 := by cases reset <;> rfl
  rw [hn, ← hsetup, shiftOps_eq_setup_append, Nat.add_assoc, List.getElem?_append_right (Nat.le_add_right ..),
    Nat.add_sub_cancel_left, ← List.getElem?_drop, drop_passes _ _ (by simpa using hj)]

theorem read_not_mem_shiftOps (r : Role) : MicroOp.read r ∉ shiftOps bits reset := fun h => by
  obtain ⟨q, v, he, -⟩ := write_of_mem_shiftOps h
  cases he

theorem oe_not_mem_shiftOps (v : Bit) : MicroOp.write .oe v ∉ shiftOps bits reset := fun h => by
  obtain ⟨q, w, he, hoe, -⟩ := write_of_mem_shiftOps h
  cases he
  exact hoe rfl

end

/-- Settles O37: the setup is written out in the definition; the writes of pass `j` are the first of the list from that
pass on, and the last two writes follow the last pass. -/
theorem shiftOpsAreInOrder : Obligations.ShiftOpsAreInOrder := by
  intro reset bits p L ops
  have hend {i n : Nat} (hn : n = p + 3 + 4 * L + i) : ops[n]? = shiftEnd[i]? := by
    have hnone : bits.reverse.drop L = [] := List.drop_eq_nil_of_le (by simp [L])
    exact (getElem?_shiftOps reset bits (Nat.le_refl L) hn).trans (by rw [hnone]; rfl)
  refine ⟨?pulse, ?clockLow, ?dataLow, ?latchLow, read_not_mem_shiftOps reset bits, oe_not_mem_shiftOps reset bits,
    ?passes, hend (i := 0) rfl, hend (i := 1) (by omega), ?length⟩
  case pulse => rintro rfl; exact ⟨rfl, rfl⟩
  case clockLow => cases reset <;> rfl
  case dataLow => cases reset <;> rfl
  case latchLow => cases reset <;> rfl
  case passes =>
    intro j b hb hj
    obtain ⟨hj', rfl⟩ := List.getElem?_eq_some_iff.mp ((List.getElem?_reverse hj).trans hb)
    have hpass {i n : Nat} (hn : n = p + 3 + 4 * j + i) := getElem?_shiftOps reset bits hj.le hn
    rw [List.drop_eq_getElem_cons hj'] at hpass
    exact ⟨hpass (i := 0) rfl, hpass (i := 1) (by omega), hpass (i := 2) (by omega), hpass (i := 3) (by omega)⟩
  case length =>
    have hlength : ops.length = 4 * L + if reset then 7 else 5 := shiftOps_length bits reset
    cases reset <;> simp only [p, hlength, if_true, Bool.false_eq_true, if_false] <;> omega

/-! ### Counts -/

/-- Whether a micro-op is a write to role `r`, of either level. -/
def MicroOp.writesTo (r : Role) : MicroOp → Bool
  | .write q _ => q == r
  | .read _ => false

theorem writeCount_false_add_true (r : Role) (ops : List MicroOp) :
    writeCount r false ops + writeCount r true ops = ops.countP (MicroOp.writesTo r) := by
  induction ops with
  | nil => rfl
  | cons op ops ih =>
    simp only [writeCount, List.countP_cons] at ih ⊢
    cases op with
    | read q => simpa [MicroOp.writesTo] using ih
    | write q v =>
      by_cases hq : q = r <;> cases v <;> simp [MicroOp.writesTo, hq] <;> omega

/-- Where every pass has `n` micro-ops of a kind, and the writes around the passes have `m`, a SHIFT has `L * n + m`. -/
theorem countP_shiftOps {p : MicroOp → Bool} {n m : Nat} {reset : Bit} (hpass : ∀ b, (bitPass b).countP p = n)
    (hends : (shiftSetup reset).countP p + shiftEnd.countP p = m) (bits : List Bit) :
    (shiftOps bits reset).countP p = bits.length * n + m := by
  have hpasses : (bits.reverse.flatMap bitPass).countP p = bits.length * n := by
    simp [List.countP_flatMap, Function.comp_def, hpass]
  rw [shiftOps_eq_setup_append, List.countP_append, List.countP_append, hpasses, ← hends, Nat.add_left_comm]

/-- Settles O38: CLOCK is written twice in a pass and once to 1, DATA twice, and the other roles never. -/
theorem shiftWriteCounts : Obligations.ShiftWriteCounts := by
  intro reset bits L ops
  have hnever (v : Bit) {r : Role} {m : Nat} (hpass : ∀ b, writeCount r v (bitPass b) = 0)
      (hends : writeCount r v (shiftSetup reset) + writeCount r v shiftEnd = m) : writeCount r v ops = m :=
    (countP_shiftOps hpass hends bits).trans (by omega)
  refine ⟨?clock, ?rise, ?data, hnever _ (by decide) (by cases reset <;> rfl),
    hnever _ (by decide) (by cases reset <;> rfl), hnever _ (by decide) (by cases reset <;> rfl),
    hnever _ (by decide) (by cases reset <;> rfl), hnever _ (by decide) (by cases reset <;> rfl),
    hnever _ (by decide) (by cases reset <;> rfl), read_not_mem_shiftOps reset bits, ?length⟩
  case clock =>
    have hcount := countP_shiftOps (p := MicroOp.writesTo .clock) (n := 2) (m := 2) (reset := reset) (by decide)
      (by cases reset <;> rfl) bits
    rw [writeCount_false_add_true, hcount, Nat.mul_comm]
  case rise =>
    have hcount := countP_shiftOps (p := (· == .write .clock true)) (n := 1) (m := 0) (reset := reset) (by decide)
      (by cases reset <;> rfl) bits
    exact hcount.trans (Nat.mul_one _)
  case data =>
    have hcount := countP_shiftOps (p := MicroOp.writesTo .data) (n := 2) (m := 1) (reset := reset) (by decide)
      (by cases reset <;> rfl) bits
    rw [writeCount_false_add_true, hcount, Nat.mul_comm]
  case length => exact (shiftOps_length bits reset).trans (by cases reset <;> rfl)

/-! ### The history -/

/-- The passes over `bits` show its levels at their CLOCK edges, whatever DATA was before: a pass writes its bit to DATA
and only then raises CLOCK. -/
theorem clockEdgeData_passes (data : Level) (bits : List Bit) :
    clockEdgeData data (writeEvents (bits.flatMap bitPass ++ shiftEnd)) = bits.map levelOf := by
  induction bits generalizing data with
  | nil => rfl
  | cons b bits ih => exact congrArg (levelOf b :: ·) (ih .zero)

/-- Settles O43: the setup raises no CLOCK edge, so the passes are all there is to read. -/
theorem clockDataPairsAreTheReversedBits : Obligations.ClockDataPairsAreTheReversedBits := by
  intro data reset bits
  rw [shiftOps_eq_setup_append, ← clockEdgeData_passes .zero bits.reverse]
  cases reset <;> rfl

end Sys2Proof.Machine
end

section
/-! PROOF. What a SHIFT leaves in the chain and on the lines: its passes shift the bits in through MR, and LATCH high
takes the stages to the latches (42_shift.md R136, R140, R146; 60_exceptions.md R174 to R177). -/

namespace Sys2Proof.Machine

/-! ### The stages as MR holds them -/

/-- What MR at level `mr` makes of a stage at level `x` (60_exceptions.md R176). -/
def mrLevel (mr x : Level) : Level :=
  match mr with
  | .zero => .zero
  | .unknown => merge x .zero
  | .one => x

@[simp] theorem mrLevel_mrLevel (mr x : Level) : mrLevel mr (mrLevel mr x) = mrLevel mr x := by
  cases mr with
  | zero => rfl
  | one => rfl
  | unknown => exact merge_zero_merge_zero x

@[simp] theorem mrLevel_comp_mrLevel (mr : Level) : mrLevel mr ∘ mrLevel mr = mrLevel mr :=
  funext (mrLevel_mrLevel mr)

theorem Chain.mrClear_eq (mr : Level) (c : Chain) : c.mrClear mr = ⟨c.sr.map (mrLevel mr), c.out⟩ := by
  cases mr with
  | zero => rfl
  | one => exact congrArg (Chain.mk · c.out) (List.map_id' _).symm
  | unknown => rfl

/-- The stages after `MrClear` at the present level of MR: what the next edge shifts or latches. -/
def State.clearedStages (s : State) : List Level := s.chain.sr.map (mrLevel s.mrEff)

theorem State.clearedStages_length (s : State) : s.clearedStages.length = s.chain.sr.length :=
  List.length_map ..

/-- Clearing commutes with the shift of R175. -/
theorem map_shifted (f : Level → Level) (d : Level) (sr : List Level) :
    (shifted d sr).map f = shifted (f d) (sr.map f) :=
  List.map_dropLast

/-- One shift more fixes one stage more: stage 0, and the stages fixed before moved up by one. -/
theorem take_succ_shifted {n : Nat} (d : Level) {sr : List Level} (h : n < sr.length) :
    (shifted d sr).take (n + 1) = d :: sr.take n := by
  rw [shifted, List.dropLast_eq_take, List.length_cons, Nat.add_sub_cancel, List.take_take, Nat.min_eq_left h,
    List.take_succ_cons]

section
variable (s : State)

/-- A write without an edge leaves the cleared stages as they were. -/
theorem drive_clearedStages_of_no_edge {r : Role} {v : Bit} (hr : r ≠ .mr) (h : r = .data ∨ v = false) :
    (drive r v s).clearedStages = s.clearedStages := by
  unfold State.clearedStages
  rw [drive_mrEff_of_ne_mr v s hr]
  by_cases hm : s.line.get r = levelOf v
  · rw [drive_chain_of_held r v s hm]
  · rw [drive_chain_of_no_edge r v s hm (h.imp_right fun hv => .inr (.inr hv)), drive_mrEff_of_ne_mr v s hr]
    simp [Chain.mrClear_eq]

/-- A write of 1 to a line at 0 makes a rising edge, between two clears at the level MR has (60_exceptions.md R174). -/
theorem drive_rise_chain {r : Role} (hr : r ≠ .mr) (hlow : s.line.get r = .zero) :
    (drive r true s).chain =
      (edgeReaction r .yes { s with line := s.line.set r .one } (s.chain.mrClear s.mrEff)).mrClear s.mrEff := by
  have hmr : { s with line := s.line.set r (levelOf true) : State }.mrEff = s.mrEff :=
    (drive_mrEff r true s).symm.trans (drive_mrEff_of_ne_mr true s hr)
  rw [drive_chain_of_moved r true s (by simp [hlow]), hmr, hlow]
  rfl

/-- With LATCH low a CLOCK edge shifts, whatever `SHIFT_WHILE_LATCH_HIGH` is (R175). -/
theorem shiftAllowed_zero (whileHigh : Bool) : shiftAllowed whileHigh .zero = .yes := by cases whileHigh <;> rfl

/-- A rising CLOCK edge with LATCH low shifts the DATA level in, as MR lets it (R175, R176). -/
theorem drive_clock_rise_clearedStages (hclock : s.line.clock = .zero) (hlatch : s.line.latch = .zero) :
    (drive .clock true s).clearedStages = shifted (mrLevel s.mrEff s.line.data) s.clearedStages := by
  have hchain : (drive .clock true s).chain =
      ((s.chain.mrClear s.mrEff).shiftEdge .yes s.line.data).mrClear s.mrEff := by
    rw [drive_rise_chain s (r := .clock) (by decide) hclock]
    simp [edgeReaction, Lines.set, hlatch, shiftAllowed_zero, bothEdges]
  unfold State.clearedStages
  rw [drive_mrEff_of_ne_mr true s (by decide), hchain]
  simp [Chain.mrClear_eq, Chain.shiftEdge, map_shifted]

/-- A rising LATCH edge takes the cleared stages to the latches (R177). -/
theorem drive_latch_rise_chain (hlatch : s.line.latch = .zero) :
    (drive .latch true s).chain = ⟨s.clearedStages, s.clearedStages⟩ := by
  rw [drive_rise_chain s (r := .latch) (by decide) hlatch]
  simp [edgeReaction, Chain.latchEdge, Chain.mrClear_eq, State.clearedStages]

/-! ### The passes -/

/-- `mrEff` holds over a stretch that does not write MR (10_state.md R29). -/
theorem drives_mrEff_of_not_written {ops : List MicroOp} (h : ∀ v, MicroOp.write .mr v ∉ ops) :
    (drives ops s).mrEff = s.mrEff := by
  obtain ⟨hcfg, -, -, hplat, -⟩ := drives_frame ops s
  have hmr : (drives ops s).line.mr = s.line.mr := drives_line_of_not_written (r := .mr) s h
  simp [State.mrEff, hcfg, hplat, hmr]

theorem drives_sr_length (ops : List MicroOp) : (drives ops s).chain.sr.length = s.chain.sr.length := by
  induction ops generalizing s with
  | nil => rfl
  | cons op ops ih =>
    cases op with
    | write r v => exact (ih (drive r v s)).trans (drive_sr_length r v s)
    | read r => exact ih s

/-- One pass shifts its bit in: of its four writes only the CLOCK edge moves the cleared stages (42_shift.md R136). -/
theorem drives_bitPass_clearedStages (b : Bit) (hlatch : s.line.latch = .zero) :
    (drives (bitPass b) s).clearedStages = shifted (mrLevel s.mrEff (levelOf b)) s.clearedStages := by
  have hrise := drive_clock_rise_clearedStages (drive .data b (drive .clock false s)) rfl hlatch
  rw [drive_mrEff_of_ne_mr _ _ (by decide), drive_mrEff_of_ne_mr _ _ (by decide),
    drive_clearedStages_of_no_edge _ (by decide) (.inl rfl),
    drive_clearedStages_of_no_edge _ (by decide) (.inr rfl)] at hrise
  exact (drive_clearedStages_of_no_edge _ (by decide) (.inl rfl)).trans hrise

/-- The passes write CLOCK and DATA only. -/
theorem write_not_mem_passes {r : Role} (hclock : r ≠ .clock) (hdata : r ≠ .data) (bits : List Bit) (v : Bit) :
    MicroOp.write r v ∉ bits.flatMap bitPass := by
  simp [bitPass, hclock, hdata]

theorem drives_passes_line {r : Role} (hclock : r ≠ .clock) (hdata : r ≠ .data) (bits : List Bit) :
    (drives (bits.flatMap bitPass) s).line.get r = s.line.get r :=
  drives_line_of_not_written s (write_not_mem_passes hclock hdata bits)

theorem drives_passes_mrEff (bits : List Bit) : (drives (bits.flatMap bitPass) s).mrEff = s.mrEff :=
  drives_mrEff_of_not_written s (write_not_mem_passes (by decide) (by decide) bits)

/-- The passes over `bits` in reverse order leave its bits, as MR lets them, in the first stages: the pass of the first
bit is the last, and it moves the bits after it up by one. -/
theorem drives_passes_clearedStages (hlatch : s.line.latch = .zero) (bits : List Bit)
    (hlen : bits.length ≤ s.chain.sr.length) :
    (drives (bits.reverse.flatMap bitPass) s).clearedStages.take bits.length =
      bits.map fun b => mrLevel s.mrEff (levelOf b) := by
  induction bits with
  | nil => rfl
  | cons b bits ih =>
    have hlast : drives ((b :: bits).reverse.flatMap bitPass) s =
        drives (bitPass b) (drives (bits.reverse.flatMap bitPass) s) := by
      rw [List.reverse_cons, List.flatMap_append, drives_append]; simp
    have hlatch' : (drives (bits.reverse.flatMap bitPass) s).line.latch = .zero :=
      (drives_passes_line (r := .latch) s (by decide) (by decide) _).trans hlatch
    have hroom : bits.length < (drives (bits.reverse.flatMap bitPass) s).clearedStages.length := by
      rw [State.clearedStages_length, drives_sr_length]; exact hlen
    rw [hlast, drives_bitPass_clearedStages _ b hlatch', drives_passes_mrEff,
      List.length_cons, take_succ_shifted _ hroom, ih (Nat.le_of_succ_le hlen), List.map_cons]

/-- The passes leave DATA at 0, where they found it. -/
theorem drives_passes_data (hdata : s.line.data = .zero) (bits : List Bit) :
    (drives (bits.flatMap bitPass) s).line.data = .zero := by
  induction bits generalizing s with
  | nil => exact hdata
  | cons b bits ih => rw [List.flatMap_cons, drives_append]; exact ih _ rfl

/-! ### A whole SHIFT -/

/-- The lines after a SHIFT (42_shift.md R140). -/
theorem drives_shiftOps_line (bits : List Bit) (reset : Bit) :
    (drives (shiftOps bits reset) s).line =
      ⟨.one, .zero, .zero, s.line.oe, if reset then .one else s.line.mr⟩ := by
  have hdata : (drives (shiftSetup reset) s).line.data = .zero := by cases reset <;> rfl
  have hoe : (drives (shiftSetup reset) s).line.oe = s.line.oe := by cases reset <;> rfl
  have hmr : (drives (shiftSetup reset) s).line.mr = if reset then .one else s.line.mr := by cases reset <;> rfl
  have hdata' := drives_passes_data _ hdata bits.reverse
  have hoe' := (drives_passes_line (r := .oe) _ (by decide) (by decide) bits.reverse).trans hoe
  have hmr' := (drives_passes_line (r := .mr) _ (by decide) (by decide) bits.reverse).trans hmr
  simp only [Lines.get] at hoe' hmr'
  rw [shiftOps_eq_setup_append, drives_append, drives_append]
  simp [shiftEnd, drives, Lines.set, hdata', hoe', hmr']

/-- The chain after a SHIFT: the bits, as MR lets them, in every stage and latch, whatever they held before. -/
theorem drives_shiftOps_chain (bits : List Bit) (reset : Bit) (hlen : s.chain.sr.length = bits.length) :
    (drives (shiftOps bits reset) s).chain =
      ⟨bits.map fun b => mrLevel (drives (shiftSetup reset) s).mrEff (levelOf b),
        bits.map fun b => mrLevel (drives (shiftSetup reset) s).mrEff (levelOf b)⟩ := by
  have hlatch := drives_shiftSetup_latch reset s
  have hpasses := drives_passes_clearedStages (drives (shiftSetup reset) s) hlatch bits
    (by rw [drives_sr_length, hlen])
  rw [List.take_of_length_le (by rw [State.clearedStages_length, drives_sr_length, drives_sr_length, hlen]),
    ← drive_clearedStages_of_no_edge _ (r := .clock) (v := false) (by decide) (.inr rfl)] at hpasses
  rw [shiftOps_eq_setup_append, drives_append, drives_append, ← hpasses]
  refine drive_latch_rise_chain _ ?_
  exact (drives_passes_line (r := .latch) _ (by decide) (by decide) _).trans hlatch

end
end Sys2Proof.Machine
end

section
/-! PROOF. SHIFT from its validation to its response: the statements about whole runs (42_shift.md R130, R131, R140,
R141, R145, R146). -/

namespace Sys2Proof.Machine

/-! ### Validation -/

theorem State.stages_of_configured {s : State} {c : Cfg} (h : s.cfg = some c) : s.stages = c.chips * 8 := by
  simp [State.stages, h, pinsPerChip]

theorem State.hasMR_of_configured {s : State} {c : Cfg} (h : s.cfg = some c) : s.hasMR = c.hasMR := by
  simp [State.hasMR, h]

section
variable {reset : Bit} {bits : List Bit} {s : State} (hp : s.seq.phase = .idle)
include hp

/-- A SHIFT of the wrong length ends at once (60_exceptions.md R161). -/
theorem exec_shift_wrong_length (hlen : bits.length ≠ s.stages) :
    exec (.shift reset bits) s =
      .next (complete (.lengthError s.stages bits.length) (s.issue (encode (.shift reset bits)))) := by
  have hlen' : bits.length ≠ (s.issue (encode (.shift reset bits))).stages := hlen
  rw [exec_of_right_phase _ s (.inr ⟨hp, rfl⟩), ownRule, beginShift, if_pos hlen']
  rfl

/-- A reset without an MR line ends a SHIFT of the right length at once (R163). -/
theorem exec_shift_unmanaged_mr (hlen : bits.length = s.stages) (hreset : reset = true) (hmr : s.hasMR = false) :
    exec (.shift reset bits) s =
      .next (complete (.unmanaged .mr) (s.issue (encode (.shift reset bits)))) := by
  have hlen' : ¬bits.length ≠ (s.issue (encode (.shift reset bits))).stages := not_not.mpr hlen
  have hmr' : (reset && !(s.issue (encode (.shift reset bits))).hasMR) = true := by simp [hreset, hmr]
  rw [exec_of_right_phase _ s (.inr ⟨hp, rfl⟩), ownRule, beginShift, if_neg hlen', if_pos hmr']
  rfl

end

/-- Settles O36: one case for each answer of the validation. -/
theorem shiftIsValidatedFirst : Obligations.ShiftIsValidatedFirst := by
  intro s c reset bits hp hcfg
  have hstages := State.stages_of_configured hcfg
  have hmanaged := State.hasMR_of_configured hcfg
  rw [← hstages, ← hmanaged]
  by_cases hlen : bits.length = s.stages
  · by_cases hmr : reset = true → s.hasMR = true
    · exact ⟨_, exec_shift_valid hp hlen hmr, rfl, rfl, ⟨rfl, rfl, rfl, rfl⟩, rfl, (absurd hlen ·),
        fun _ hreset hno => by simp [hmr hreset] at hno, fun _ _ => ⟨rfl, rfl, rfl, rfl, rfl, rfl⟩⟩
    · obtain ⟨hreset, hno⟩ := Classical.not_imp.mp hmr
      exact ⟨_, exec_shift_unmanaged_mr hp hlen hreset (Bool.eq_false_of_not_eq_true hno), rfl, rfl,
        ⟨rfl, rfl, rfl, rfl⟩, rfl, (absurd hlen ·),
        fun _ _ _ => ⟨⟨rfl, rfl, rfl, rfl⟩, rfl, List.append_assoc ..⟩, fun _ h => absurd h hmr⟩
  · exact ⟨_, exec_shift_wrong_length hp hlen, rfl, rfl, ⟨rfl, rfl, rfl, rfl⟩, rfl,
      fun _ => ⟨⟨rfl, rfl, rfl, rfl⟩, rfl, List.append_assoc ..⟩, (absurd · hlen), (absurd · hlen)⟩

/-! ### MR during a SHIFT -/

/-- MR is high at every CLOCK edge of a SHIFT when the pulse leaves it so or it is high already (R140). -/
theorem State.mrHigh_iff {s : State} {c : Cfg} (hcfg : s.cfg = some c) (reset : Bit) :
    s.MrHigh c reset ↔ reset = true ∨ s.mrEff = .one := by
  have heff : s.mrEff = if c.hasMR then s.line.mr else levelOf s.platform.mrTied := by
    simp [State.mrEff, hcfg, effective]
  have htied : levelOf s.platform.mrTied = .one ↔ s.platform.mrTied = true := levelOf_injective.eq_iff (b := true)
  unfold State.MrHigh
  rw [heff]
  cases c.hasMR <;> simp [htied]

/-- The level at which MR stands from the end of the setup of a SHIFT on (R133). -/
def State.shiftMr (s : State) (reset : Bit) : Level := if reset then .one else s.mrEff

theorem State.shiftMr_of_high {s : State} {reset : Bit} (h : reset = true ∨ s.mrEff = .one) :
    s.shiftMr reset = .one := by
  rcases h with h | h <;> simp [State.shiftMr, h]

theorem drives_shiftSetup_mrEff {s : State} {reset : Bit} (hmr : reset = true → s.hasMR = true) :
    (drives (shiftSetup reset) s).mrEff = s.shiftMr reset := by
  cases reset with
  | false => exact drives_mrEff_of_not_written s (by decide)
  | true =>
    obtain ⟨hcfg, -⟩ := drives_frame (shiftSetup true) s
    have hmanaged := hmr rfl
    have hline : (drives (shiftSetup true) s).line.mr = .one := rfl
    cases hc : s.cfg with
    | none => simp [State.hasMR, hc] at hmanaged
    | some c =>
      have hc' : (drives (shiftSetup true) s).cfg = some c := hcfg.trans hc
      rw [State.hasMR_of_configured hc] at hmanaged
      simp [State.shiftMr, State.mrEff, effective, hc', hmanaged, hline]

theorem drives_shiftOps_mrEff {s : State} {reset : Bit} (bits : List Bit) (hmr : reset = true → s.hasMR = true) :
    (drives (shiftOps bits reset) s).mrEff = s.shiftMr reset := by
  rw [shiftOps_eq_setup_append, drives_append, drives_append, drives_mrEff_of_not_written _ (by decide),
    drives_passes_mrEff, drives_shiftSetup_mrEff hmr]

/-! ### The run -/

/-- The state in which a valid SHIFT taken in `s` ends: its writes and the response; `d` draws have been taken. -/
def State.afterShift (reset : Bit) (bits : List Bit) (d : Nat) (s : State) : State :=
  complete .success ((drives (shiftOps bits reset) (s.issue (encode (.shift reset bits)))).withDraws d)

section
variable (reset : Bit) (bits : List Bit) (d : Nat) (s : State)

theorem State.afterShift_ended : (s.afterShift reset bits d).EndedWith .success := ⟨rfl, rfl, rfl, rfl⟩

theorem State.afterShift_setting : s.SameSetting (s.afterShift reset bits d) := by
  obtain ⟨hcfg, -, hmarks, hplat, -, hhost, -⟩ :=
    drives_frame (shiftOps bits reset) (s.issue (encode (.shift reset bits)))
  exact ⟨hcfg, hmarks, hplat, hhost⟩

theorem State.afterShift_hist :
    (s.afterShift reset bits d).hist = s.hist ++ [Event.cmd (encode (.shift reset bits))] ++
      writeEvents (shiftOps bits reset) ++ [Event.resp .success] := by
  obtain ⟨-, -, -, -, -, -, hhist⟩ := drives_frame (shiftOps bits reset) (s.issue (encode (.shift reset bits)))
  exact congrArg (· ++ [Event.resp .success]) hhist

theorem State.afterShift_line :
    (s.afterShift reset bits d).line = ⟨.one, .zero, .zero, s.line.oe, if reset then .one else s.line.mr⟩ :=
  drives_shiftOps_line (s.issue (encode (.shift reset bits))) bits reset

theorem State.afterShift_oeEff : (s.afterShift reset bits d).oeEff = s.oeEff := by
  obtain ⟨hcfg, -, hplat, -⟩ := s.afterShift_setting reset bits d
  simp [State.oeEff, hcfg, hplat, s.afterShift_line reset bits d]

end

section
variable {reset : Bit} {bits : List Bit} {s : State} (d : Nat)

theorem State.afterShift_mrEff (hmr : reset = true → s.hasMR = true) :
    (s.afterShift reset bits d).mrEff = s.shiftMr reset :=
  drives_shiftOps_mrEff (s := s.issue (encode (.shift reset bits))) bits hmr

theorem State.afterShift_chain (hmr : reset = true → s.hasMR = true) (hlen : s.chain.sr.length = bits.length) :
    (s.afterShift reset bits d).chain =
      ⟨bits.map fun b => mrLevel (s.shiftMr reset) (levelOf b),
        bits.map fun b => mrLevel (s.shiftMr reset) (levelOf b)⟩ := by
  have hchain := drives_shiftOps_chain (s.issue (encode (.shift reset bits))) bits reset hlen
  rw [drives_shiftSetup_mrEff (s := s.issue (encode (.shift reset bits))) hmr] at hchain
  exact hchain

/-- With MR high the bits themselves are in the stages and the latches (R140). -/
theorem State.afterShift_chain_of_high (hmr : reset = true → s.hasMR = true)
    (hlen : s.chain.sr.length = bits.length) (hhigh : reset = true ∨ s.mrEff = .one) :
    (s.afterShift reset bits d).chain = ⟨bits.map levelOf, bits.map levelOf⟩ := by
  rw [State.afterShift_chain d hmr hlen, State.shiftMr_of_high hhigh]
  rfl

theorem enterBusy_eq_withSeq (i : Instr) (ops : List MicroOp) (s : State) :
    enterBusy i ops s = s.withSeq { phase := .busy, ops := ops, k := 0, cmd := some i, resp := s.seq.resp } := rfl

/-- A SHIFT that has just entered BUSY runs to its end in as many steps as it has writes. -/
theorem runs_shift (hf : s.WritesSucceed) (hh : hostBlocks s.host = true) :
    ∃ d, s.draws ≤ d ∧ (s.platform.pinWritesFallible = false → d = s.draws) ∧
      runs (4 * bits.length + if reset then 7 else 5)
        (enterBusy (.shift reset bits) (shiftOps bits reset) (s.issue (encode (.shift reset bits)))) =
        .next (s.afterShift reset bits d) := by
  have hw : ∀ op ∈ shiftOps bits reset, ∃ r v, op = .write r v := fun op hop =>
    (write_of_mem_shiftOps hop).imp fun _ h => h.imp fun _ h => h.1
  obtain ⟨n, hn⟩ : ∃ n, (shiftOps bits reset).length = n + 1 :=
    Nat.exists_eq_add_one.mpr (by rw [shiftOps_length]; split <;> omega)
  obtain ⟨d, hd, hinf, hruns⟩ := runs_writes_to_end n
    (enterBusy (.shift reset bits) (shiftOps bits reset) (s.issue (encode (.shift reset bits)))) rfl hh hf hw
    (by simpa using hn.symm)
  refine ⟨d, hd, hinf, ?_⟩
  rw [← shiftOps_length, hn, hruns, enterBusy_seq, List.drop_zero, enterBusy_eq_withSeq, drives_withSeq,
    complete_withSeq]
  rfl

/-- The contract of a valid SHIFT on a ready controller: accepted, and run to its end (R130, R140, R143). -/
theorem shift_runs {c : Cfg} (hs : s.Ready c) (hlen : bits.length = c.chips * 8)
    (hmr : reset = true → c.hasMR = true) :
    ∃ d, s.draws ≤ d ∧ (s.platform.pinWritesFallible = false → d = s.draws) ∧
      exec (.shift reset bits) s =
        .next (enterBusy (.shift reset bits) (shiftOps bits reset) (s.issue (encode (.shift reset bits)))) ∧
      runs (4 * (c.chips * 8) + if reset then 7 else 5)
        (enterBusy (.shift reset bits) (shiftOps bits reset) (s.issue (encode (.shift reset bits)))) =
        .next (s.afterShift reset bits d) := by
  obtain ⟨d, hd, hinf, hruns⟩ := runs_shift (reset := reset) (bits := bits) hs.noFailure hs.blocks
  rw [hlen] at hruns
  exact ⟨d, hd, hinf, exec_shift_valid hs.idle (hlen.trans (State.stages_of_configured hs.configured).symm)
    (by rwa [State.hasMR_of_configured hs.configured]), hruns⟩

end

/-! ### The statements -/

/-- Settles O39: the contract, with MR high at every edge. -/
theorem shiftDeliversThePattern : Obligations.ShiftDeliversThePattern := by
  intro s c reset bits hs hsr hlen hmr hhigh
  obtain ⟨d, -, hdraws, hexec, hruns⟩ := shift_runs hs hlen hmr
  rw [State.mrHigh_iff hs.configured] at hhigh
  have hmr' : reset = true → s.hasMR = true := by rwa [State.hasMR_of_configured hs.configured]
  have hchain := State.afterShift_chain_of_high d hmr' (hsr.trans hlen.symm) hhigh
  have hvisible : (s.afterShift reset bits d).visible = bits.map fun b => gate s.oeEff (levelOf b) := by
    rw [State.visible, State.afterShift_oeEff, hchain, List.map_map]; rfl
  refine ⟨_, _, hexec, hruns, State.afterShift_ended .., congrArg Chain.sr hchain, congrArg Chain.out hchain,
    State.afterShift_line .., fun hlow => ?_, fun hoff => ?_, State.afterShift_hist .., State.afterShift_setting ..,
    hdraws⟩
  · rw [hvisible, hlow]
    exact List.map_congr_left fun b _ => by cases b <;> rfl
  · rw [hvisible, hoff]
    rfl

/-- Settles O40: without the pulse MR stays as it was, and its level decides what each bit becomes. -/
theorem shiftWithoutMasterResetHigh : Obligations.ShiftWithoutMasterResetHigh := by
  intro s c bits hs hsr hlen _
  obtain ⟨d, -, -, hexec, hruns⟩ := shift_runs (reset := false) hs hlen (by simp)
  have hchain := State.afterShift_chain (reset := false) d (by simp) (hsr.trans hlen.symm)
  have hout : (s.afterShift false bits d).chain.out = bits.map fun b => mrLevel s.mrEff (levelOf b) :=
    congrArg Chain.out hchain
  refine ⟨_, _, hexec, hruns, State.afterShift_ended .., fun hz => ?_, fun hu => ?_, by rw [hchain]⟩
  · rw [hout, hz]
    rfl
  · rw [hout, hu]
    exact List.map_congr_left fun b _ => by cases b <;> rfl

/-- The reset flag puts the pulse in front and changes nothing else of the list (R132, R133). -/
theorem shiftOps_true (bits : List Bit) :
    shiftOps bits true = .write .mr false :: .write .mr true :: shiftOps bits false := rfl

/-- Settles O41: with MR high both runs meet the contract. -/
theorem resetFlagChangesNoOutput : Obligations.ResetFlagChangesNoOutput := by
  intro s c bits hs hsr hlen hmanaged hmr
  obtain ⟨d₀, -, -, hexec₀, hruns₀⟩ := shift_runs (reset := false) hs hlen (by simp)
  obtain ⟨d₁, -, -, hexec₁, hruns₁⟩ := shift_runs (reset := true) hs hlen fun _ => hmanaged
  have hhigh : s.mrEff = .one := by simp [State.mrEff, hs.configured, effective, hmanaged, hmr]
  have hmr' : true = true → s.hasMR = true := fun _ => (State.hasMR_of_configured hs.configured).trans hmanaged
  have hlen' := hsr.trans hlen.symm
  refine ⟨_, _, _, _, hexec₀, hruns₀, hexec₁, hruns₁, ?chain, ?line, ?mr, State.afterShift_hist .., ?hist⟩
  case chain =>
    rw [State.afterShift_chain_of_high d₁ hmr' hlen' (.inl rfl),
      State.afterShift_chain_of_high d₀ (by simp) hlen' (.inr hhigh)]
  case line => rw [State.afterShift_line, State.afterShift_line]; rfl
  case mr => exact State.afterShift_mrEff d₁ hmr'
  case hist =>
    rw [State.afterShift_hist, shiftOps_true]
    simp only [writeEvents, List.append_assoc, List.cons_append, List.nil_append]
    rfl

/-- A blocking call of a SHIFT with MR high: the latches hold its bits, and the controller is ready with MR high. -/
theorem runs_call_shift {reset : Bit} {bits : List Bit} {s : State} {c : Cfg} {rest : List HostAction}
    (hs : s.Ready c) (hsr : s.chain.sr.length = c.chips * 8) (hlen : bits.length = c.chips * 8)
    (hmr : reset = true → c.hasMR = true) (hhigh : reset = true ∨ s.mrEff = .one) (hrest : hostBlocks rest = true)
    (hhost : s.host = .call (encode (.shift reset bits)) :: rest) :
    ∃ k t, runs k s = .next t ∧ t.Ready c ∧ t.mrEff = .one ∧ t.chain = ⟨bits.map levelOf, bits.map levelOf⟩ ∧
      t.EndedWith .success ∧ t.host = rest ∧
      t.hist = s.hist ++ [Event.cmd (encode (.shift reset bits))] ++ writeEvents (shiftOps bits reset) ++
        [Event.resp .success] := by
  have hs' := hs.withHost hrest
  obtain ⟨d, hd, -, hexec, hruns⟩ := shift_runs hs' hlen hmr
  have hmr' : reset = true → State.hasMR { s with host := rest } = true := by
    rwa [State.hasMR_of_configured hs'.configured]
  exact ⟨_, _, runs_call hs.idle hhost hexec hruns,
    hs'.after (State.afterShift_ended ..) (State.afterShift_setting ..) hd,
    (State.afterShift_mrEff d hmr').trans (State.shiftMr_of_high hhigh),
    State.afterShift_chain_of_high d hmr' (hsr.trans hlen.symm) hhigh, State.afterShift_ended ..,
    (State.afterShift_setting ..).host, State.afterShift_hist ..⟩

/-- Settles O44: the first SHIFT leaves the controller ready with MR high, so the second meets the contract too. -/
theorem secondShiftReplacesTheFirst : Obligations.SecondShiftReplacesTheFirst := by
  intro s c r₁ r₂ b₁ b₂ rest hs hsr hlen₁ hlen₂ hmr hhigh hrest hhost
  rw [State.mrHigh_iff hs.configured] at hhigh
  obtain ⟨k₁, t₁, hruns₁, hready, hmr₁, hchain₁, hended₁, hhost₁, hhist₁⟩ :=
    runs_call_shift hs hsr hlen₁ (fun h => hmr (.inl h)) hhigh rfl hhost
  have hsr₁ : t₁.chain.sr.length = c.chips * 8 := by rw [hchain₁, List.length_map, hlen₁]
  obtain ⟨k₂, t₂, hruns₂, -, -, hchain₂, hended₂, hhost₂, hhist₂⟩ :=
    runs_call_shift hready hsr₁ hlen₂ (fun h => hmr (.inr h)) (.inr hmr₁) hrest hhost₁
  exact ⟨k₁, t₁, k₂, t₂, hruns₁, congrArg Chain.out hchain₁, hended₁, hhost₁, hhist₁, hruns₂,
    congrArg Chain.out hchain₂, hended₂, hhost₂, hhist₂⟩

end Sys2Proof.Machine
end

section
/-! PROOF. No command makes an edge from an unknown level, so `SHIFT_WHILE_LATCH_HIGH` is never seen (60_exceptions.md
R179, R181). -/

namespace Sys2Proof.Machine

/-! ### The last write before an edge -/

theorem lastWritten_append (r : Role) (a b : List MicroOp) :
    lastWritten r (a ++ b) = (lastWritten r b).or (lastWritten r a) := by
  induction b using List.reverseRecOn with
  | nil => simp [lastWritten]
  | append_singleton b op ih =>
    rw [← List.append_assoc]
    cases op with
    | read q => rw [lastWritten_append_read, lastWritten_append_read, ih]
    | write q v =>
      rw [lastWritten_append_write, lastWritten_append_write, ih]
      split <;> rfl

/-- A role that a list does not write has no last write in it. -/
theorem lastWritten_eq_none {r : Role} {ops : List MicroOp} (h : ∀ v, MicroOp.write r v ∉ ops) :
    lastWritten r ops = none := by
  induction ops with
  | nil => rfl
  | cons op ops ih =>
    have hops : lastWritten r ops = none := ih fun v hv => h v (List.mem_cons_of_mem _ hv)
    rw [← List.singleton_append, lastWritten_append, hops]
    cases op with
    | read q => rfl
    | write q w =>
      have hq : q ≠ r := by rintro rfl; exact h w List.mem_cons_self
      simp [lastWritten, hq]

/-- A pass writes CLOCK to 0 before it raises it (42_shift.md R136). -/
theorem lastWritten_clock_take_passes (bits : List Bit) {k : Nat}
    (h : (bits.flatMap bitPass ++ shiftEnd)[k]? = some (.write .clock true)) :
    lastWritten .clock ((bits.flatMap bitPass ++ shiftEnd).take k) = some false := by
  induction bits generalizing k with
  | nil => exact absurd (List.mem_of_getElem? h) (by decide)
  | cons b bits ih =>
    match k with
    | 0 | 1 | 3 => simp [bitPass] at h
    | 2 => rfl
    | k + 4 =>
      have hrest : lastWritten .clock ((bits.flatMap bitPass ++ shiftEnd).take k) = some false := ih h
      have htake : ((b :: bits).flatMap bitPass ++ shiftEnd).take (k + 4) =
          bitPass b ++ (bits.flatMap bitPass ++ shiftEnd).take k := rfl
      rw [htake, lastWritten_append, hrest]
      rfl

/-- The setup raises neither CLOCK nor LATCH. -/
theorem rise_not_mem_shiftSetup {r : Role} (hr : r = .clock ∨ r = .latch) (reset : Bit) :
    MicroOp.write r true ∉ shiftSetup reset := by
  rcases hr with rfl | rfl <;> cases reset <;> decide

/-- Between the setup and the last micro-op LATCH was last written to 0. -/
theorem lastWritten_latch_take_shiftOps {bits : List Bit} {reset : Bit} {k : Nat}
    (hk : k < (shiftOps bits reset).length) (hsetup : (shiftSetup reset).length ≤ k) :
    lastWritten .latch ((shiftOps bits reset).take k) = some false := by
  have hpasses : lastWritten .latch ((shiftPasses bits).take (k - (shiftSetup reset).length)) = none :=
    lastWritten_eq_none fun v hv => latch_not_mem_shiftPasses bits v (List.mem_of_mem_take hv)
  have hlow : lastWritten .latch (shiftSetup reset) = some false := by cases reset <;> rfl
  rw [take_shiftOps hk, List.take_append, List.take_of_length_le hsetup, lastWritten_append, hpasses, hlow]
  rfl

/-- Before a SHIFT raises CLOCK or LATCH, its last writes to that line and to LATCH were of 0. -/
theorem lastWritten_before_rise {bits : List Bit} {reset : Bit} {k : Nat} {r : Role} (hr : r = .clock ∨ r = .latch)
    (h : (shiftOps bits reset)[k]? = some (.write r true)) :
    lastWritten r ((shiftOps bits reset).take k) = some false ∧
      lastWritten .latch ((shiftOps bits reset).take k) = some false := by
  have hsetup : (shiftSetup reset).length ≤ k := by
    by_contra hlt
    rw [shiftOps_eq_setup_append, List.getElem?_append_left (not_le.mp hlt)] at h
    exact rise_not_mem_shiftSetup hr reset (List.mem_of_getElem? h)
  have hlatch := lastWritten_latch_take_shiftOps (List.getElem?_eq_some_iff.mp h).1 hsetup
  refine ⟨?_, hlatch⟩
  rcases hr with rfl | rfl
  · rw [shiftOps_eq_setup_append, List.getElem?_append_right hsetup] at h
    rw [shiftOps_eq_setup_append, List.take_append, List.take_of_length_le hsetup, lastWritten_append,
      lastWritten_clock_take_passes _ h]
    rfl
  · exact hlatch

/-- A command that writes a role other than OE is a SHIFT (R132; 41_output_control.md R110, R111). -/
theorem State.InProgress.ops_of_write {s : State} (h : s.InProgress) {r : Role} {v : Bit} (hoe : r ≠ .oe)
    (hop : s.seq.ops[s.seq.k]? = some (.write r v)) : ∃ bits reset, s.seq.ops = shiftOps bits reset := by
  unfold State.InProgress at h
  split at h
  next reset bits _ => exact ⟨bits, reset, h.1⟩
  next => exact absurd (oe_write_is_last h.2 hop).1 hoe
  next => exact absurd (oe_write_is_last h.2 hop).1 hoe
  next =>
    obtain ⟨-, hops, hk⟩ := h
    simp [hops, hk] at hop
  next => exact h.elim
  next => exact h.elim

/-- Settles O16: the edges are a SHIFT's, and each line holds what the SHIFT last wrote to it. -/
theorem noCommandMakesAnUnknownEdge : Obligations.NoCommandMakesAnUnknownEdge := by
  intro s r hinv hp hr hop
  have hoe : r ≠ .oe := by rcases hr with rfl | rfl <;> decide
  obtain ⟨bits, reset, hops⟩ := (hinv.inProgress hp).ops_of_write hoe hop
  rw [hops] at hop
  obtain ⟨hlow, hlatch⟩ := lastWritten_before_rise hr hop
  rw [← hops] at hlow hlatch
  exact ⟨hinv.linesHeld r false hlow, hinv.linesHeld .latch false hlatch⟩

end Sys2Proof.Machine
end

section
/-! PROOF. `SHIFT_WHILE_LATCH_HIGH` is read at a CLOCK edge only, and there LATCH is low (60_exceptions.md R175,
R181). -/

namespace Sys2Proof.Machine

/-- A read micro-op: the read, what it adds to `SEQ.OPS`, and the advance (10_state.md R31). -/
theorem performRead_eq (r : Role) (s : State) :
    performRead r s = advance (readResponse (pinRead r s).2.seq.cmd (pinRead r s).1)
      ((pinRead r s).2.withSeq { (pinRead r s).2.seq with
        ops := (pinRead r s).2.seq.ops ++ followUp (pinRead r s).2.seq.cmd (pinRead r s).1 }) :=
  rfl

/-! ### Blindness to `SHIFT_WHILE_LATCH_HIGH` -/

/-- `s` with another `SHIFT_WHILE_LATCH_HIGH`. -/
def State.withFlag (flag : Bool) (s : State) : State :=
  { s with platform := { s.platform with shiftWhileLatchHigh := flag } }

/-- An outcome with another `SHIFT_WHILE_LATCH_HIGH` in its next state. -/
def outcomeWithFlag (flag : Bool) : Host.Outcome State Fault Refusal → Host.Outcome State Fault Refusal
  | .next t => .next (t.withFlag flag)
  | .fault f => .fault f
  | .refused r => .refused r

section
variable (flag : Bool) (s : State)

@[simp] theorem State.withFlag_line : (s.withFlag flag).line = s.line := rfl
@[simp] theorem State.withFlag_seq : (s.withFlag flag).seq = s.seq := rfl
@[simp] theorem State.withFlag_draws : (s.withFlag flag).draws = s.draws := rfl
@[simp] theorem State.withFlag_host : (s.withFlag flag).host = s.host := rfl
@[simp] theorem outcomeWithFlag_next : outcomeWithFlag flag (.next s) = .next (s.withFlag flag) := rfl

/-- Only a CLOCK write of 1 reads the flag, and with LATCH low it shifts whatever the flag is (R175). -/
theorem drive_withFlag {r : Role} {v : Bit} (h : r = .clock → v = true → s.line.latch = .zero) :
    drive r v (s.withFlag flag) = (drive r v s).withFlag flag := by
  cases r with
  | latch | data | oe | mr => rfl
  | clock =>
    cases v with
    | false =>
      have hedge : edge s.line.clock false = .no := by cases s.line.clock <;> rfl
      simp [drive, chainReact, edgeReaction, Lines.get, hedge, bothEdges, State.withFlag, State.record, State.mrEff]
    | true =>
      have hallowed (b : Bool) : shiftAllowed b s.line.latch = .yes := by rw [h rfl rfl, shiftAllowed_zero]
      simp [drive, chainReact, edgeReaction, Lines.get, Lines.set, hallowed, State.withFlag, State.record, State.mrEff]

theorem advance_withFlag (ok : Response) : advance ok (s.withFlag flag) = (advance ok s).withFlag flag := by
  rcases advance_cases ok s with ⟨hk, h⟩ | ⟨hk, h⟩ <;> rw [h]
  · exact if_pos hk
  · exact if_neg (Nat.not_lt.mpr hk)

theorem pinRead_withFlag (r : Role) :
    pinRead r (s.withFlag flag) = ((pinRead r s).1, (pinRead r s).2.withFlag flag) := by
  simp only [pinRead, State.withFlag_line, State.withFlag_draws]
  split <;> rfl

theorem State.withFlag_withSeq (q : Sequencer) : (s.withFlag flag).withSeq q = (s.withSeq q).withFlag flag := rfl

theorem performRead_withFlag (r : Role) : performRead r (s.withFlag flag) = (performRead r s).withFlag flag := by
  rw [performRead_eq, performRead_eq, pinRead_withFlag, State.withFlag_withSeq, advance_withFlag]
  rfl

theorem performWrite_withFlag {r : Role} {v : Bit} (h : r = .clock → v = true → s.line.latch = .zero) :
    performWrite r v (s.withFlag flag) = (performWrite r v s).withFlag flag := by
  have hwrite (u : State) (hu : u.line = s.line) :
      advance .success (drive r v (u.withFlag flag)) = (advance .success (drive r v u)).withFlag flag := by
    rw [drive_withFlag flag u (hu ▸ h), advance_withFlag]
  rw [performWrite_eq]
  change (if s.platform.pinWritesFallible = true then if Config.writeFails s.draws = true then _ else _ else _) =
    State.withFlag flag (if _ then if _ then _ else _ else _)
  split_ifs
  · rfl
  · exact hwrite { s with draws := s.draws + 1 } rfl
  · exact hwrite s rfl

/-- A micro-op does not see the flag where a CLOCK edge finds LATCH low. -/
theorem microStep_withFlag (h : s.seq.ops[s.seq.k]? = some (.write .clock true) → s.line.latch = .zero) :
    microStep (s.withFlag flag) = (microStep s).withFlag flag := by
  simp only [microStep, State.withFlag_seq]
  cases hop : s.seq.ops[s.seq.k]? with
  | none => rfl
  | some op =>
    cases op with
    | write r v => exact performWrite_withFlag flag s fun hr hv => h (by rw [hop, hr, hv])
    | read r => exact performRead_withFlag flag s r

theorem beginOE_withFlag (i : Instr) : beginOE i (s.withFlag flag) = (beginOE i s).withFlag flag := by
  unfold beginOE
  change (if s.hasOE = true then _ else _) = _
  split <;> rfl

theorem ownRule_withFlag (i : Instr) : ownRule i (s.withFlag flag) = (ownRule i s).withFlag flag := by
  cases i with
  | construct o m n =>
    change (if badChipCount s.platform n = true then _ else _) = State.withFlag flag (if _ then _ else _)
    split <;> rfl
  | enableOutput | disableOutput | isOutputEnabled => exact beginOE_withFlag flag s _
  | shift reset bits =>
    change (if bits.length ≠ s.stages then _ else if (reset && !s.hasMR) = true then _ else _) =
      State.withFlag flag (if _ then _ else if _ then _ else _)
    split_ifs <;> rfl

/-- The phase checks of a record, before what follows them. -/
theorem phaseGate_withFlag (c : Command) (k : Host.Outcome State Fault Refusal) :
    phaseGate c (s.withFlag flag) (outcomeWithFlag flag k) = outcomeWithFlag flag (phaseGate c s k) := by
  unfold phaseGate
  rw [State.withFlag_seq]
  cases s.seq.phase <;> rfl

theorem exec_withFlag (i : Instr) : exec i (s.withFlag flag) = outcomeWithFlag flag (exec i s) := by
  rw [exec_eq_beginCommand, exec_eq_beginCommand, beginCommand, beginCommand, ← phaseGate_withFlag, State.withFlag_seq]
  cases phaseRefusal i.isConstruct s.seq.phase with
  | some cause => rfl
  | none => exact congrArg (phaseGate _ _ <| .next ·) (ownRule_withFlag flag (s.issue (encode i)) i)

theorem takeCommand_withFlag (c : Command) :
    takeCommand c (s.withFlag flag) = outcomeWithFlag flag (takeCommand c s) := by
  unfold takeCommand
  rw [← phaseGate_withFlag]
  cases decode c with
  | ok i => exact congrArg (phaseGate _ _) (exec_withFlag flag s i)
  | rejected why => rfl

variable {s}

theorem proceed_withFlag
    (h : s.seq.phase = .busy → s.seq.ops[s.seq.k]? = some (.write .clock true) → s.line.latch = .zero) :
    proceed (s.withFlag flag) = outcomeWithFlag flag (proceed s) := by
  unfold proceed
  rw [State.withFlag_seq]
  cases hp : s.seq.phase with
  | busy => exact congrArg Host.Outcome.next (microStep_withFlag flag s (h hp))
  | unconfigured | idle | faulted | destroyed => rfl

/-- A step does not see the flag where a CLOCK edge finds LATCH low. -/
theorem step_withFlag
    (h : s.seq.phase = .busy → s.seq.ops[s.seq.k]? = some (.write .clock true) → s.line.latch = .zero) :
    step (s.withFlag flag) = outcomeWithFlag flag (step s) := by
  unfold step turn
  rw [State.withFlag_host, State.withFlag_seq]
  cases s.host with
  | nil => exact proceed_withFlag flag h
  | cons a rest =>
    cases a with
    | pass => exact proceed_withFlag (s := { s with host := rest }) flag h
    | present c => exact takeCommand_withFlag flag { s with host := rest } c
    | call c =>
      by_cases hb : s.seq.phase = .busy
      · simp only [hb, if_true]; exact proceed_withFlag flag h
      · simp only [hb, if_false]; exact takeCommand_withFlag flag { s with host := rest } c
    | release =>
      cases hp : s.seq.phase with
      | busy => exact proceed_withFlag flag h
      | unconfigured | idle | faulted | destroyed => rfl

end

/-- Settles O17: a CLOCK edge of a command in progress finds LATCH low, by the invariant. -/
theorem shiftWhileLatchHighIsNeverSeen : Obligations.ShiftWhileLatchHighIsNeverSeen := by
  intro s t flag hinv hstep
  have hblind : step (s.withFlag flag) = outcomeWithFlag flag (step s) :=
    step_withFlag flag fun hp hop => (noCommandMakesAnUnknownEdge s .clock hinv hp (.inl rfl) hop).2
  rw [hstep] at hblind
  exact hblind

end Sys2Proof.Machine
end

section
/-! PROOF. Every command ends: each micro-op leaves less to do, whether or not its write fails (60_exceptions.md R160,
R186; 70_reset_and_hazards.md R214). -/

namespace Sys2Proof.Machine

@[simp] theorem advance_host (ok : Response) (s : State) : (advance ok s).host = s.host := by
  unfold advance; split <;> rfl

/-- A micro-op leaves what the host does next alone. -/
theorem microStep_host (s : State) : (microStep s).host = s.host := by
  rcases microStep_cases s with ⟨r, v, d, -, h⟩ | ⟨r, v, d, -, -, h⟩ | ⟨r, v, d, -, -, h⟩ | ⟨-, h⟩ <;> rw [h] <;> simp

/-! ### What is left to do -/

/-- The steps a micro-op takes at most: a read may add a write (10_state.md R31). -/
def MicroOp.weight : MicroOp → Nat
  | .write _ _ => 1
  | .read _ => 2

/-- The steps a list of micro-ops takes at most. -/
def totalWeight (ops : List MicroOp) : Nat := (ops.map MicroOp.weight).sum

/-- The steps the command in progress takes at most from here on. -/
def State.remaining (s : State) : Nat := totalWeight (s.seq.ops.drop s.seq.k)

theorem totalWeight_append (a b : List MicroOp) : totalWeight (a ++ b) = totalWeight a + totalWeight b := by
  simp [totalWeight]

/-- A read adds at most one write. -/
theorem totalWeight_followUp_le (i : Option Instr) (v : Bit) : totalWeight (followUp i v) ≤ 1 := by
  rcases followUp_cases i v with h | ⟨w, h, -⟩ <;> rw [h]
  · exact Nat.zero_le 1
  · exact Nat.le_refl 1

/-- The next micro-op's share of what remains. -/
theorem totalWeight_drop {ops : List MicroOp} {k : Nat} {op : MicroOp} (h : ops[k]? = some op) :
    totalWeight (ops.drop k) = op.weight + totalWeight (ops.drop (k + 1)) := by
  obtain ⟨hk, rfl⟩ := List.getElem?_eq_some_iff.mp h
  rw [List.drop_eq_getElem_cons hk]
  rfl

/-- A micro-op that is still to come takes at least a step. -/
theorem totalWeight_drop_pos {ops : List MicroOp} {k : Nat} (h : k < ops.length) : 0 < totalWeight (ops.drop k) := by
  rw [totalWeight_drop (List.getElem?_eq_getElem h)]
  cases ops[k] <;> exact Nat.add_pos_left (Nat.succ_pos _) _

/-- A list of writes takes a step for each. -/
theorem totalWeight_of_writes {ops : List MicroOp} (h : ∀ op ∈ ops, ∃ r v, op = .write r v) :
    totalWeight ops = ops.length := by
  have hone : ∀ op ∈ ops, op.weight = 1 := fun op hop => by
    obtain ⟨r, v, rfl⟩ := h op hop
    rfl
  simp [totalWeight, List.map_congr_left hone]

/-- A command in progress has at most one read left, so it takes at most a step more than it has micro-ops left. -/
theorem State.InProgress.remaining_le {s : State} (h : s.InProgress) :
    s.remaining ≤ s.seq.ops.length - s.seq.k + 1 := by
  unfold State.InProgress at h
  unfold State.remaining
  split at h
  next reset bits _ =>
    obtain ⟨hops, -⟩ := h
    have hw : ∀ op ∈ s.seq.ops.drop s.seq.k, ∃ r v, op = .write r v := fun op hop => by
      obtain ⟨r, v, he, -⟩ := write_of_mem_shiftOps (hops ▸ List.mem_of_mem_drop hop)
      exact ⟨r, v, he⟩
    rw [totalWeight_of_writes hw, List.length_drop]
    exact Nat.le_succ _
  next => rcases h.2 with ⟨hops, hk⟩ | ⟨hops, hk⟩ <;> rw [hops, hk] <;> decide
  next => rcases h.2 with ⟨hops, hk⟩ | ⟨hops, hk⟩ <;> rw [hops, hk] <;> decide
  next =>
    obtain ⟨-, hops, hk⟩ := h
    rw [hops, hk]
    decide
  next => exact h.elim
  next => exact h.elim

/-! ### One micro-op -/

/-- The command has ended, with success or a `PinIoError` (R160, R171). -/
def State.Finished (s : State) : Prop :=
  s.seq.phase = .idle ∧ ∃ r, s.seq.resp = some r ∧ (r.status = .ok ∨ r.status = .pinIoError)

theorem complete_finished {resp : Response} (h : resp.status = .ok ∨ resp.status = .pinIoError) (s : State) :
    (complete resp s).Finished :=
  ⟨rfl, resp, rfl, h⟩

theorem readResponse_status (i : Option Instr) (v : Bit) : (readResponse i v).status = .ok := by
  cases i with
  | none => rfl
  | some i => cases i <;> rfl

/-- An advance ends the command, or goes on to the next micro-op with less to do than `n`. -/
theorem advance_finished_or_less {ok : Response} (hok : ok.status = .ok) {s : State} (hp : s.seq.phase = .busy)
    {n : Nat} (hn : totalWeight (s.seq.ops.drop (s.seq.k + 1)) < n) :
    (advance ok s).Finished ∨
      (advance ok s).seq.phase = .busy ∧ 0 < (advance ok s).remaining ∧ (advance ok s).remaining < n := by
  rcases advance_cases ok s with ⟨hk, h⟩ | ⟨-, h⟩ <;> rw [h]
  · exact .inr ⟨hp, totalWeight_drop_pos hk, hn⟩
  · exact .inl (complete_finished (.inl hok) s)

/-- A micro-op ends the command, or leaves less to do and something still. -/
theorem microStep_finished_or_less {s : State} (hp : s.seq.phase = .busy) :
    (microStep s).Finished ∨
      (microStep s).seq.phase = .busy ∧ 0 < (microStep s).remaining ∧ (microStep s).remaining < s.remaining := by
  rcases microStep_cases s with
    ⟨r, v, d, hop, h⟩ | ⟨r, v, d, -, -, h⟩ | ⟨r, v, d, hop, -, h⟩ | ⟨-, h⟩ <;> rw [h]
  · have hshare : s.remaining = 1 + totalWeight (s.seq.ops.drop (s.seq.k + 1)) := totalWeight_drop hop
    refine advance_finished_or_less ?_ ?_ ?_
    · rfl
    · exact hp
    · simp only [drive_seq]; omega
  · exact .inl (complete_finished (.inr rfl) _)
  · have hshare : s.remaining = 2 + totalWeight (s.seq.ops.drop (s.seq.k + 1)) := totalWeight_drop hop
    have hk : s.seq.k + 1 ≤ s.seq.ops.length := (List.getElem?_eq_some_iff.mp hop).1
    have hadds := totalWeight_followUp_le s.seq.cmd v
    refine advance_finished_or_less ?_ ?_ ?_
    · exact readResponse_status ..
    · exact hp
    · simp only [List.drop_append_of_le_length hk, totalWeight_append]; omega
  · exact .inl (complete_finished (.inl rfl) s)

/-! ### The run -/

/-- A command whose host does not intrude ends within what remains of it, by induction on that. -/
theorem runs_to_finish (n : Nat) {s : State} (hp : s.seq.phase = .busy) (hh : hostBlocks s.host = true)
    (hn : s.remaining ≤ n + 1) :
    ∃ k t, 1 ≤ k ∧ k ≤ n + 1 ∧ runs k s = .next t ∧ t.Finished ∧ t.host = s.host := by
  have hstep := step_busy hp hh
  have hhost := microStep_host s
  induction n generalizing s with
  | zero =>
    have hdone : (microStep s).Finished := (microStep_finished_or_less hp).resolve_right (by omega)
    exact ⟨1, _, Nat.le_refl 1, Nat.le_refl 1, runs_succ 0 hstep, hdone, hhost⟩
  | succ n ih =>
    rcases microStep_finished_or_less hp with hdone | ⟨hb, -, hless⟩
    · exact ⟨1, _, Nat.le_refl 1, Nat.le_add_left 1 _, runs_succ 0 hstep, hdone, hhost⟩
    · have hh' : hostBlocks (microStep s).host = true := hhost ▸ hh
      obtain ⟨k, t, -, hk, hruns, hdone, ht⟩ := ih hb hh' (by omega) (step_busy hb hh') (microStep_host _)
      exact ⟨k + 1, t, Nat.le_add_left 1 k, Nat.succ_le_succ hk, (runs_succ k hstep).trans hruns, hdone,
        ht.trans hhost⟩

/-- Settles O51: what remains of the command is bounded by the micro-ops left and the write that a read may add. -/
theorem everyCommandEnds : Obligations.EveryCommandEnds := by
  intro s hinv hp hh
  obtain ⟨k, t, hpos, hk, hruns, ⟨hidle, hresp⟩, hhost⟩ :=
    runs_to_finish (s.seq.ops.length - s.seq.k) hp hh (hinv.inProgress hp).remaining_le
  exact ⟨k, t, hpos, hk, hruns, hidle, hresp, hhost⟩

end Sys2Proof.Machine
end

section
/-! PROOF. What one write does to the chain: the CLOCK edge, the LATCH edge and MR (60_exceptions.md R174 to R177, R182),
and what that makes of the stages and the latches over a step. -/

namespace Sys2Proof.Machine

/-! ### The edge of a CLOCK write -/

/-- A write of 0, and a write of the level held, make no edge (60_exceptions.md R174). -/
theorem edge_eq_no {old : Level} {v : Bit} (h : v = false ∨ old = levelOf v) : edge old v = .no := by
  rcases h with rfl | rfl
  · cases old <;> rfl
  · cases v <;> rfl

theorem shiftAllowed_eq_yes_iff {flag : Bool} {latch : Level} :
    shiftAllowed flag latch = .yes ↔ flag = true ∨ latch = .zero := by
  revert flag; cases latch <;> decide

theorem shiftAllowed_eq_no_iff {flag : Bool} {latch : Level} :
    shiftAllowed flag latch = .no ↔ flag = false ∧ latch = .one := by
  revert flag; cases latch <;> decide

/-- Where neither answer of `allowed` is certain to be wrong, an edge that may be none may shift (R175). -/
theorem bothEdges_eq_maybe {e allowed : Edge} (h : e = .maybe ∧ allowed ≠ .no ∨ e = .yes ∧ allowed = .maybe) :
    bothEdges e allowed = .maybe := by
  revert h; cases e <;> cases allowed <;> decide

theorem bothEdges_eq_no {e allowed : Edge} (h : e = .no ∨ allowed = .no) : bothEdges e allowed = .no := by
  revert h; cases e <;> cases allowed <;> decide

/-- The edge with which a CLOCK write of `v` shifts (R175's `e2`). -/
def State.shiftsAt (s : State) (v : Bit) : Edge :=
  bothEdges (edge s.line.clock v) (shiftAllowed s.platform.shiftWhileLatchHigh s.line.latch)

/-- With MR high a CLOCK write is the shift of its edge, and nothing else (R175). -/
theorem drive_clock_chain {s : State} (v : Bit) (hmr : s.mrEff = .one) :
    (drive .clock v s).chain = s.chain.shiftEdge (s.shiftsAt v) s.line.data := by
  by_cases hm : s.line.clock = levelOf v
  · rw [drive_chain_of_held .clock v s hm, State.shiftsAt, edge_eq_no (.inr hm), bothEdges_eq_no (.inl rfl)]
    rfl
  · have hmr' : { s with line := s.line.set .clock (levelOf v) : State }.mrEff = .one :=
      (drive_mrEff .clock v s).symm.trans ((drive_mrEff_of_ne_mr v s (by decide)).trans hmr)
    rw [drive_chain_of_moved .clock v s hm, hmr']
    rfl

/-- A shift puts the DATA level into stage 0 (R175). -/
theorem shifted_getElem?_zero (d : Level) {sr : List Level} (h : 0 < sr.length) : (shifted d sr)[0]? = some d := by
  rw [shifted, List.getElem?_dropLast, if_pos (by simpa using h)]
  rfl

/-- A shift puts every stage into the next (R175). -/
theorem shifted_getElem?_succ (d : Level) {sr : List Level} {k : Nat} (h : k + 1 < sr.length) :
    (shifted d sr)[k + 1]? = sr[k]? := by
  rw [shifted, List.getElem?_dropLast, if_pos (by simpa using h)]
  rfl

theorem mergeAll_getElem? {a b : List Level} {k : Nat} {x y : Level} (hx : a[k]? = some x) (hy : b[k]? = some y) :
    (mergeAll a b)[k]? = some (merge x y) :=
  List.getElem?_zipWith_eq_some.mpr ⟨x, y, hx, hy, rfl⟩

/-- Settles O11: the chain is what the edge of R175 makes of it, and each clause fixes that edge. -/
theorem clockEdgeShiftsOneStage : Obligations.ClockEdgeShiftsOneStage := by
  intro s v hmr t moves still
  have hchain : t.chain = s.chain.shiftEdge (s.shiftsAt v) s.line.data := drive_clock_chain v hmr
  refine ⟨by rw [hchain, Chain.shiftEdge_out], drive_sr_length .clock v s, fun hv hlow hmoves => ?yes,
    fun hv hedge => ?maybe, fun hno => ?no⟩
  case yes =>
    have hyes : s.shiftsAt v = .yes := by
      rw [State.shiftsAt, hv, hlow, shiftAllowed_eq_yes_iff.mpr hmoves]
      rfl
    have hsr : t.chain.sr = shifted s.line.data s.chain.sr := by rw [hchain, hyes]; rfl
    rw [hsr]
    exact ⟨shifted_getElem?_zero _, fun k hk => shifted_getElem?_succ _ hk⟩
  case maybe =>
    have hmaybe : s.shiftsAt v = .maybe := by
      refine bothEdges_eq_maybe ?_
      rcases hedge with ⟨hclock, hstill⟩ | ⟨hclock, hmoves, hstill⟩ <;> rw [hv, hclock]
      · exact .inl ⟨rfl, fun h => hstill (shiftAllowed_eq_no_iff.mp h)⟩
      · refine .inr ⟨rfl, ?_⟩
        cases ha : shiftAllowed s.platform.shiftWhileLatchHigh s.line.latch with
        | yes => exact absurd (shiftAllowed_eq_yes_iff.mp ha) hmoves
        | no => exact absurd (shiftAllowed_eq_no_iff.mp ha) hstill
        | maybe => rfl
    have hsr : t.chain.sr = mergeAll s.chain.sr (shifted s.line.data s.chain.sr) := by rw [hchain, hmaybe]; rfl
    rw [hsr]
    refine ⟨fun x hx => mergeAll_getElem? hx (shifted_getElem?_zero _ ?_),
      fun k x y hx hy => mergeAll_getElem? hy ((shifted_getElem?_succ _ ?_).trans hx)⟩
    · exact (List.getElem?_eq_some_iff.mp hx).1
    · exact (List.getElem?_eq_some_iff.mp hy).1
  case no =>
    have hnone : s.shiftsAt v = .no := by
      refine bothEdges_eq_no ?_
      rcases hno with hv | hclock | hstill
      · exact .inl (edge_eq_no (.inl hv))
      · cases v with
        | false => exact .inl (edge_eq_no (.inl rfl))
        | true => exact .inl (edge_eq_no (.inr hclock))
      · exact .inr (shiftAllowed_eq_no_iff.mpr hstill)
    rw [hchain, hnone]
    rfl

/-! ### MR -/

/-- A stage that MR does not hold high reads no 1 (R176). -/
theorem mrLevel_ne_one {mr : Level} (h : mr ≠ .one) (x : Level) : mrLevel mr x ≠ .one := by
  cases mr with
  | zero => exact fun hx => nomatch hx
  | unknown => cases x <;> decide
  | one => exact absurd rfl h

/-- After a write that moves its line every stage is as MR lets it be (R176). -/
theorem drive_stage_of_moved {r : Role} {v : Bit} {s : State} (hm : s.line.get r ≠ levelOf v) {x : Level}
    (hx : x ∈ (drive r v s).chain.sr) : ∃ y, x = mrLevel (drive r v s).mrEff y := by
  rw [drive_chain_of_moved r v s hm, ← drive_mrEff, Chain.mrClear_eq (drive r v s).mrEff] at hx
  obtain ⟨y, -, hy⟩ := List.mem_map.mp hx
  exact ⟨y, hy.symm⟩

/-- Settles O12. -/
theorem lowResetClearsTheStagesOnly : Obligations.LowResetClearsTheStagesOnly := by
  intro s r v
  refine ⟨fun hm => ⟨fun hz x hx => ?_, fun hu x hx => ?_⟩,
    fun hh => ⟨drive_chain_of_held r v s hh, drive_mrEff_of_held r v s hh⟩, drive_out_of_not_latch r v s⟩
  · obtain ⟨y, rfl⟩ := drive_stage_of_moved hm hx
    rw [hz]
    rfl
  · obtain ⟨y, rfl⟩ := drive_stage_of_moved hm hx
    exact mrLevel_ne_one (by simp [hu]) y

/-! ### The LATCH edge -/

/-- The latches hold at a write that is not the LATCH write of 1 (R177). -/
theorem drive_out_of_no_rise {r : Role} {v : Bit} (s : State) (h : ¬(r = .latch ∧ v = true)) :
    (drive r v s).chain.out = s.chain.out :=
  drive_out_of_not_latch r v s ((not_and_or.mp h).imp_right Bool.eq_false_of_not_eq_true)

/-- A LATCH write of 1 onto an unknown level may take the cleared stages to the latches (R177, R179). -/
theorem drive_latch_maybe_chain (s : State) (hlatch : s.line.latch = .unknown) :
    (drive .latch true s).chain = ⟨s.clearedStages, mergeAll s.chain.out s.clearedStages⟩ := by
  have hlatch' : s.line.get .latch = .unknown := hlatch
  have hmr : { s with line := s.line.set .latch (levelOf true) : State }.mrEff = s.mrEff :=
    (drive_mrEff .latch true s).symm.trans (drive_mrEff_of_ne_mr true s (by decide))
  rw [drive_chain_of_moved .latch true s (by simp [hlatch']), hmr, hlatch']
  simp [edgeReaction, edge, Chain.latchEdge, Chain.mrClear_eq, State.clearedStages]

/-- Settles O13. -/
theorem onlyTheLatchEdgeCopies : Obligations.OnlyTheLatchEdgeCopies := by
  intro s r v
  refine ⟨?rise, ?maybe, ?other⟩
  case rise => rintro rfl rfl hlow; rw [drive_latch_rise_chain s hlow]
  case maybe => rintro rfl rfl hunknown; rw [drive_latch_maybe_chain s hunknown]
  case other =>
    rintro (hr | hv | hhigh)
    · exact drive_out_of_not_latch r v s (.inl hr)
    · exact drive_out_of_not_latch r v s (.inr hv)
    · by_cases hrise : r = .latch ∧ v = true
      · obtain ⟨rfl, rfl⟩ := hrise
        rw [drive_chain_of_held .latch true s hhigh]
      · exact drive_out_of_no_rise s hrise

/-! ### The latches over a step -/

/-- What can change a latch: CONSTRUCT, the LATCH edge, and the loss of the chain by a failed write or the fault. -/
theorem Effect.out_changes {s t : State} (e : Effect s t) (hinv : s.Inv) (h : t.chain.out ≠ s.chain.out) :
    (s.seq.phase = .unconfigured ∧ s.cfg = none ∧
      ∃ o m n, t.cfg = some ⟨n, o, m⟩ ∧ t.chain.out = List.replicate (n * 8) .unknown ∧
        t.hist = s.hist ++ [.cmd (encode (.construct o m n)), .resp ⟨.ok, false, 0, 0, none⟩]) ∨
      (s.seq.phase = .busy ∧
        ((s.seq.ops[s.seq.k]? = some (.write .latch true) ∧ t.chain.out = t.chain.sr ∧
            ∃ more, t.hist = s.hist ++ .write .latch true :: more) ∨
          (t.chain.out = unknowns s.chain.out.length ∧
            (t.seq.phase = .faulted ∨ (s.platform.pinWritesFallible = true ∧ t.seq.phase = .idle))))) := by
  cases e with
  | construct o m n hp => exact .inl ⟨hp, (hinv.fresh hp).1, o, m, n, rfl, rfl, List.append_assoc ..⟩
  | fault c hp => exact .inr ⟨hp, .inr ⟨rfl, .inl rfl⟩⟩
  | lose r v d hp hop hf => exact .inr ⟨hp, .inr ⟨rfl, .inr ⟨hf, rfl⟩⟩⟩
  | write r v d hp hop =>
    have hrise : r = .latch ∧ v = true := by
      by_contra hrise
      exact h (by simpa using drive_out_of_no_rise s hrise)
    obtain ⟨rfl, rfl⟩ := hrise
    obtain ⟨-, hlow⟩ := noCommandMakesAnUnknownEdge s .latch hinv hp (.inr rfl) hop
    obtain ⟨more, hmore⟩ := advance_hist_grows .success ((drive .latch true s).withDraws d)
    exact .inr ⟨hp, .inl ⟨hop, by simp [drive_latch_rise_chain s hlow], more, by simpa using hmore⟩⟩
  | read r v d => exact absurd (by simp) h
  | _ => exact absurd rfl h

/-- Settles O15: of the effects, those that change a latch are the statement's. -/
theorem latchesChangeAtNoOtherTime : Obligations.LatchesChangeAtNoOtherTime := by
  intro s t hinv hstep h
  obtain ⟨rest, e⟩ := step_effect hstep
  exact e.out_changes (hinv.withHost rest) h

/-! ### The stages over a step, while MR is not high -/

/-- `mrEff` is a function of the configuration, MR and the parameters (10_state.md R29). -/
theorem State.mrEff_congr {s t : State} (hc : t.cfg = s.cfg) (hl : t.line.mr = s.line.mr)
    (hp : t.platform = s.platform) : t.mrEff = s.mrEff := by
  simp [State.mrEff, hc, hl, hp]

/-- With the chain as it was, the stages are held low again if MR is as it was or was not high before. -/
theorem State.StagesHeldLow.of_chain {s t : State} (h : s.StagesHeldLow) (hc : t.chain = s.chain)
    (hmr : t.mrEff = s.mrEff ∨ s.mrEff ≠ .one) : t.StagesHeldLow := by
  intro hne
  rw [hc]
  rcases hmr with hmr | hmr
  · exact h (hmr ▸ hne)
  · exact h hmr

/-- Unknown stages are no 1. -/
theorem State.stagesHeldLow_of_unknowns {s : State} {n : Nat} (h : s.chain.sr = unknowns n) : s.StagesHeldLow := by
  intro _ x hx
  rw [h] at hx
  rw [List.eq_of_mem_replicate hx]
  decide

theorem State.StagesHeldLow.drive {s : State} (h : s.StagesHeldLow) (r : Role) (v : Bit) :
    (drive r v s).StagesHeldLow := by
  by_cases hm : s.line.get r = levelOf v
  · exact h.of_chain (drive_chain_of_held r v s hm) (.inl (drive_mrEff_of_held r v s hm))
  · intro hne x hx
    obtain ⟨y, rfl⟩ := drive_stage_of_moved hm hx
    exact mrLevel_ne_one hne y

theorem State.StagesHeldLow.advance {s : State} (h : s.StagesHeldLow) (ok : Response) : (advance ok s).StagesHeldLow :=
  h.of_chain (advance_chain ok s) (.inl (State.mrEff_congr (by simp) (by simp) (by simp)))

/-- A read moves `mrEff` only from an unknown MR line that is managed, so from a level that is not high. -/
theorem State.afterRead_mrEff {r : Role} {v : Bit} (d : Nat) {s : State}
    (hl : s.line.get r = .unknown ∨ s.line.get r = levelOf v) :
    (s.afterRead r v d).mrEff = s.mrEff ∨ s.mrEff ≠ .one := by
  by_cases hline : (s.line.set r (levelOf v)).mr = s.line.mr
  · exact .inl (State.mrEff_congr rfl hline rfl)
  · obtain rfl : Role.mr = r := Lines.eq_of_get_set_ne (q := .mr) hline
    have hmr : s.line.mr = .unknown := hl.resolve_right fun hv => hline hv.symm
    by_cases hhigh : s.mrEff = .one
    · refine .inl ?_
      unfold State.mrEff effective at hhigh ⊢
      cases hc : s.cfg with
      | none => simp [hc] at hhigh
      | some c => cases hm : c.hasMR <;> simp_all
    · exact .inr hhigh

/-- Held-low stages are kept by every effect. -/
theorem Effect.stagesHeldLow {s t : State} (e : Effect s t) (h : s.StagesHeldLow) : t.StagesHeldLow := by
  cases e with
  | fault c => exact State.stagesHeldLow_of_unknowns rfl
  | construct o m n => exact State.stagesHeldLow_of_unknowns rfl
  | lose r v d => exact State.stagesHeldLow_of_unknowns rfl
  | write r v d =>
    have hdrive : ((Machine.drive r v s).withDraws d).StagesHeldLow := h.drive r v
    exact hdrive.advance _
  | read r v d hp hop hl =>
    have hread : (s.afterRead r v d).StagesHeldLow := h.of_chain rfl (State.afterRead_mrEff d hl)
    exact hread.advance _
  | _ => exact h

/-- Settles O53: by the effect of the step. -/
theorem masterResetHoldsTheStages : Obligations.MasterResetHoldsTheStages := by
  intro s t h hstep
  obtain ⟨rest, e⟩ := step_effect hstep
  exact e.stagesHeldLow h

end Sys2Proof.Machine
end

section
/-! PROOF. The errors, the refusals and the fault (60_exceptions.md R160 to R171), and the controller at rest (R188;
70_reset_and_hazards.md R206). -/

namespace Sys2Proof.Machine

/-! ### The status codes -/

/-- The statuses in the order of the table of R166. -/
def statusTable : List Status :=
  [.ok, .invalidLength, .unmanagedPin, .pinIoError, .illegalCommand, .notConfigured, .reconfigure, .badChipCount,
    .destroyed, .concurrentCommand]

theorem mem_statusTable (st : Status) : st ∈ statusTable := by cases st <;> decide

/-- Settles O50: the codes of the table are all different, and every status is in the table. -/
theorem statusCodesAreTheTable : Obligations.StatusCodesAreTheTable := by
  have hnodup : (statusTable.map Status.code).Nodup := by decide
  exact ⟨rfl, fun a b h => List.inj_on_of_nodup_map hnodup (mem_statusTable a) (mem_statusTable b) h⟩

/-! ### Taking a record, phase by phase -/

theorem phaseGate_of_faulted (c : Command) {s : State} (k : Host.Outcome State Fault Refusal)
    (hp : s.seq.phase = .faulted) : phaseGate c s k = .fault .controllerFaulted := by
  simp [phaseGate, hp]

theorem takeCommand_of_busy (c : Command) {s : State} (hp : s.seq.phase = .busy) :
    takeCommand c s = .next (concurrentCommand (s.issue c)) := by
  simp [takeCommand, phaseGate, hp]

theorem takeCommand_of_destroyed (c : Command) {s : State} (hp : s.seq.phase = .destroyed) :
    takeCommand c s = .next (refuse .destroyed (s.issue c)) := by
  simp [takeCommand, phaseGate, hp]

/-- In FAULTED no step is enabled, whatever the host does next (R165). -/
theorem step_of_faulted {s : State} (hp : s.seq.phase = .faulted) : step s = .fault .controllerFaulted := by
  have htake (c : Command) (rest : List HostAction) :
      takeCommand c { s with host := rest } = .fault .controllerFaulted := phaseGate_of_faulted c _ hp
  unfold step turn
  cases s.host with
  | nil => simp [proceed, hp]
  | cons a rest => cases a <;> simp [proceed, hp, htake]

/-- Outside FAULTED the phase checks answer next where what follows them does. -/
theorem exists_phaseGate_next (c : Command) {s : State} {k : Host.Outcome State Fault Refusal}
    (hp : s.seq.phase ≠ .faulted) (hk : ∃ t, k = .next t) : ∃ t, phaseGate c s k = .next t := by
  unfold phaseGate
  cases h : s.seq.phase with
  | unconfigured | idle => exact hk
  | busy | destroyed => exact ⟨_, rfl⟩
  | faulted => exact absurd h hp

theorem exists_exec_next (i : Instr) {s : State} (hp : s.seq.phase ≠ .faulted) : ∃ t, exec i s = .next t :=
  exec_eq_beginCommand i s ▸ exists_phaseGate_next (encode i) hp ⟨_, rfl⟩

/-- Settles O26: the phase checks stop in FAULTED only, and what follows them always answers next. -/
theorem everyCommandHasAnOutcome : Obligations.EveryCommandHasAnOutcome := by
  intro s i c
  refine ⟨fun hp => ⟨exists_exec_next i hp, exists_phaseGate_next c hp ?_⟩, fun hp => ⟨?_, ?_, step_of_faulted hp⟩⟩
  · cases decode c with
    | ok j => exact exists_exec_next j hp
    | rejected why => exact ⟨_, rfl⟩
  · rw [exec_eq_beginCommand]
    exact phaseGate_of_faulted _ _ hp
  · exact phaseGate_of_faulted _ _ hp

/-- Settles O46: the fault is `concurrentCommand` on the state with the record issued. -/
theorem concurrentCommandIsTheFault : Obligations.ConcurrentCommandIsTheFault := by
  refine ⟨fun s c hp => ?busy, fun s hp => ?faulted⟩
  case busy =>
    refine ⟨_, takeCommand_of_busy c hp, rfl, rfl, rfl, fun m => mem_insertCause m .concurrentCommand s.marks,
      fun r hr => ?_, rfl, rfl, rfl, rfl, rfl, List.append_assoc .., rfl⟩
    rw [concurrentCommand_line, Lines.get_afterFault, if_neg hr]
  case faulted =>
    have htake (c : Command) : takeCommand c s = .fault .controllerFaulted := phaseGate_of_faulted c _ hp
    refine ⟨fun t ht => ?_, fun c t ht => ?_, fun ⟨hover, _⟩ => ?_⟩
    · rw [step_of_faulted hp] at ht; cases ht
    · rw [htake] at ht; cases ht
    · simp [hp] at hover

/-! ### The refusals -/

/-- Every row of R164's table ends in the refusal of its cause. -/
theorem RefusedAs.takeCommand_eq {s : State} {c : Command} {cause : Cause} (h : RefusedAs s c cause) :
    takeCommand c s = .next (refuse cause (s.issue c)) := by
  cases h with
  | destroyed hp => exact takeCommand_of_destroyed c hp
  | illegal hp hr =>
    obtain ⟨why, hd⟩ := (reserved_iff_rejected c).mp hr
    exact takeCommand_of_rejected hd hp
  | notConfigured hp i hd hplain =>
    rw [takeCommand_of_decode s hd, exec_of_phaseRefusal (.inl hp) (by rw [hp, hplain]; rfl), encode_of_decode hd]
  | reconfigure hp o m n hd =>
    rw [takeCommand_of_decode s hd, exec_of_phaseRefusal (.inr hp) (by rw [hp]; rfl), encode_of_decode hd]
  | badChipCount hp o m n hd hbad =>
    rw [takeCommand_of_decode s hd, exec_construct_of_bad_count o m hp ((badChipCount_iff s.platform n).mpr hbad),
      encode_of_decode hd]

/-- Settles O45: a refusal is one operation, whatever its cause. -/
theorem refusalsChangeNothingElse : Obligations.RefusalsChangeNothingElse := by
  intro s c cause h
  refine ⟨_, h.takeCommand_eq, ?_, fun m => mem_insertCause m cause s.marks⟩
  exact congrArg (fun hist => { refuse cause (s.issue c) with hist := hist }) (refuse_issue_hist cause c s)

/-! ### The errors of validation -/

theorem IsOECommand.ownRule_eq {i : Instr} (hi : IsOECommand i) : ownRule i = beginOE i := by
  rcases hi with rfl | rfl | rfl <;> rfl

theorem IsOECommand.not_construct {i : Instr} (hi : IsOECommand i) : i.isConstruct = false := by
  rcases hi with rfl | rfl | rfl <;> rfl

/-- Settles O33: without an OE line the command completes with the error where it would enter BUSY. -/
theorem unmanagedOutputEnableIsAnError : Obligations.UnmanagedOutputEnableIsAnError := by
  intro s i hp hoe hi
  have hunmanaged : ¬(s.issue (encode i)).hasOE = true := by simpa [State.hasOE] using hoe
  have hexec : exec i s = .next (complete (.unmanaged .oe) (s.issue (encode i))) := by
    rw [exec_of_right_phase i s (.inr ⟨hp, IsOECommand.not_construct hi⟩), IsOECommand.ownRule_eq hi, beginOE,
      if_neg hunmanaged, raise_eq_complete]
  exact ⟨_, hexec, ⟨rfl, rfl, rfl, rfl⟩, rfl, rfl, rfl, ⟨rfl, rfl, rfl, rfl⟩, List.append_assoc ..⟩

/-! ### The first check that fails -/

/-- What the state `t` after a record taken in `s` shows of the checks: the status of the first that failed, or a command
in progress or completed (R167). -/
def Reports (s t : State) (answer : Option Status) : Prop :=
  match answer with
  | some st => t.seq.resp.map (·.status) = some st ∧ t.line.oe = s.line.oe
  | none => t.seq.phase = .busy ∧ t.seq.resp = s.seq.resp ∨
      t.seq.phase = .idle ∧ t.seq.resp = some ⟨.ok, false, 0, 0, none⟩

section
variable (s : State) (c : Command)

theorem reports_refuse (cause : Cause) : Reports s (refuse cause (s.issue c)) (some cause.status) := ⟨rfl, rfl⟩

theorem reports_error (e : Response) : Reports s (complete e (s.issue c)) (some e.status) := ⟨rfl, rfl⟩

theorem reports_enterBusy (i : Instr) (ops : List MicroOp) : Reports s (enterBusy i ops (s.issue c)) none :=
  .inl ⟨rfl, rfl⟩

theorem reports_construct (o m : Bit) (n : Nat) :
    Reports s (ownRule (.construct o m n) (s.issue c))
      (if badChipCount s.platform n then some .badChipCount else none) := by
  change Reports s (if badChipCount s.platform n = true then _ else _) _
  split
  · exact reports_refuse s c .badChipCount
  · exact .inr ⟨rfl, rfl⟩

theorem reports_beginOE (i : Instr) :
    Reports s (beginOE i (s.issue c)) (if s.hasOE = false then some .unmanagedPin else none) := by
  unfold beginOE
  change Reports s (if s.hasOE = true then _ else _) _
  cases s.hasOE with
  | false => exact reports_error s c (.unmanaged .oe)
  | true => exact reports_enterBusy s c i _

theorem reports_beginShift (reset : Bit) (bits : List Bit) :
    Reports s (beginShift reset bits (s.issue c))
      (if bits.length ≠ s.stages then some .invalidLength
        else if reset = true ∧ s.hasMR = false then some .unmanagedPin else none) := by
  have hreset : (reset && !s.hasMR) = true ↔ reset = true ∧ s.hasMR = false := by simp
  unfold beginShift
  change Reports s (if bits.length ≠ s.stages then _ else if (reset && !s.hasMR) = true then _ else _) _
  simp only [hreset]
  split_ifs
  · exact reports_error s c (.lengthError s.stages bits.length)
  · exact reports_error s c (.unmanaged .mr)
  · exact reports_enterBusy s c _ _

end

/-- A CONSTRUCT in UNCONFIGURED: check 6 of R167, which R102 words. -/
theorem firstFailing_construct {s : State} {c : Command} {o m : Bit} {n : Nat} (hd : decode c = .ok (.construct o m n))
    (hp : s.seq.phase = .unconfigured) :
    firstFailing s c = if badChipCount s.platform n then some .badChipCount else none := by
  by_cases hn : n = 0
  · simp [firstFailing, hp, hd, badChipCount, hn]
  · cases hmost : s.platform.maxChips <;> simp [firstFailing, hp, hd, badChipCount, hn, hmost]

section
variable {s : State} {c : Command} {i : Instr} (hd : decode c = .ok i)
include hd

/-- A record that decodes, in UNCONFIGURED: checks 5 and 6. -/
theorem reports_exec_unconfigured (hp : s.seq.phase = .unconfigured) :
    ∃ t, exec i s = .next t ∧ Reports s t (firstFailing s c) := by
  cases hc : i.isConstruct with
  | false =>
    have hfails : firstFailing s c = some .notConfigured := by
      cases i with
      | construct => cases hc
      | _ => simp [firstFailing, hp, hd]
    exact ⟨_, exec_of_phaseRefusal (.inl hp) (by rw [hp, hc]; rfl), hfails ▸ reports_refuse s _ .notConfigured⟩
  | true =>
    cases i with
    | construct o m n =>
      exact ⟨_, exec_of_right_phase _ s (.inl ⟨hp, rfl⟩), firstFailing_construct hd hp ▸ reports_construct s _ o m n⟩
    | _ => cases hc

/-- A record that decodes, in IDLE: check 5 and the command's own validation. -/
theorem reports_exec_idle (hp : s.seq.phase = .idle) :
    ∃ t, exec i s = .next t ∧ Reports s t (firstFailing s c) := by
  cases i with
  | construct o m n =>
    have hfails : firstFailing s c = some .reconfigure := by simp [firstFailing, hp, hd]
    exact ⟨_, exec_of_phaseRefusal (.inr hp) (by rw [hp]; rfl), hfails ▸ reports_refuse s _ .reconfigure⟩
  | enableOutput | disableOutput | isOutputEnabled =>
    have hfails : firstFailing s c = if s.hasOE = false then some .unmanagedPin else none := by
      simp [firstFailing, hp, hd]
    exact ⟨_, exec_of_right_phase _ s (.inr ⟨hp, rfl⟩), hfails ▸ reports_beginOE s _ _⟩
  | shift reset bits =>
    have hfails : firstFailing s c = if bits.length ≠ s.stages then some .invalidLength
        else if reset = true ∧ s.hasMR = false then some .unmanagedPin else none := by
      simp [firstFailing, hp, hd]
    exact ⟨_, exec_of_right_phase _ s (.inr ⟨hp, rfl⟩), hfails ▸ reports_beginShift s _ reset bits⟩

end

/-- The checks of R167 in their order: the phase, the decoder, and what the command checks in its phase. -/
theorem reports_takeCommand {s : State} (c : Command) (hp : s.seq.phase ≠ .faulted) :
    ∃ t, takeCommand c s = .next t ∧ Reports s t (firstFailing s c) := by
  have hrejected {why : Reject} (hd : decode c = .rejected why)
      (hopen : s.seq.phase = .unconfigured ∨ s.seq.phase = .idle) :
      ∃ t, takeCommand c s = .next t ∧ Reports s t (firstFailing s c) := by
    have hfails : firstFailing s c = some .illegalCommand := by rcases hopen with h | h <;> simp [firstFailing, h, hd]
    exact ⟨_, takeCommand_of_rejected hd hopen, hfails ▸ reports_refuse s c .illegalCommand⟩
  cases hphase : s.seq.phase with
  | faulted => exact absurd hphase hp
  | busy =>
    have hfails : firstFailing s c = some .concurrentCommand := by simp [firstFailing, hphase]
    exact ⟨_, takeCommand_of_busy c hphase, hfails ▸ ⟨rfl, rfl⟩⟩
  | destroyed =>
    have hfails : firstFailing s c = some .destroyed := by simp [firstFailing, hphase]
    exact ⟨_, takeCommand_of_destroyed c hphase, hfails ▸ reports_refuse s c .destroyed⟩
  | unconfigured =>
    cases hd : decode c with
    | rejected why => exact hrejected hd (.inl hphase)
    | ok i => rw [takeCommand_of_decode s hd]; exact reports_exec_unconfigured hd hphase
  | idle =>
    cases hd : decode c with
    | rejected why => exact hrejected hd (.inr hphase)
    | ok i => rw [takeCommand_of_decode s hd]; exact reports_exec_idle hd hphase

/-- Settles O47: `Reports` says what the statement asks of the state after the record. -/
theorem checksReportTheFirstFailure : Obligations.ChecksReportTheFirstFailure := by
  intro s c hp
  obtain ⟨t, ht, hreports⟩ := reports_takeCommand c hp
  refine ⟨t, ht, ?_⟩
  cases h : firstFailing s c <;> rw [h] at hreports <;> exact hreports

/-! ### The controller at rest -/

theorem HostAction.not_isCommand_iff (a : HostAction) : a.isCommand = false ↔ a = .release ∨ a = .pass := by
  cases a <;> simp [HostAction.isCommand]

theorem Phase.resting_iff (p : Phase) :
    p = .idle ∨ p = .unconfigured ∨ p = .destroyed ↔ p ≠ .busy ∧ p ≠ .faulted := by
  cases p <;> decide

/-- A run is over when the controller rests and no command is to come (R188; 70_reset_and_hazards.md R206). -/
theorem State.runOver_iff (s : State) :
    s.RunOver ↔ (∀ a ∈ s.host, a = .release ∨ a = .pass) ∧ s.seq.phase ≠ .busy ∧ s.seq.phase ≠ .faulted := by
  unfold State.RunOver
  rw [Phase.resting_iff, and_comm]
  simp only [HostAction.not_isCommand_iff]

theorem proceed_of_rest {s : State} (hb : s.seq.phase ≠ .busy) (hf : s.seq.phase ≠ .faulted) :
    proceed s = .next s := by
  cases hp : s.seq.phase <;> simp_all [proceed]

theorem step_pass {s : State} {rest : List HostAction} (hs : s.host = .pass :: rest) (hb : s.seq.phase ≠ .busy)
    (hf : s.seq.phase ≠ .faulted) : step s = .next { s with host := rest } := by
  unfold step turn
  rw [hs]
  exact proceed_of_rest hb hf

theorem step_release {s : State} {rest : List HostAction} (hs : s.host = .release :: rest)
    (hb : s.seq.phase ≠ .busy) (hf : s.seq.phase ≠ .faulted) :
    step s = .next (endOfLife { s with host := rest }) := by
  unfold step turn
  rw [hs]
  cases hp : s.seq.phase <;> simp_all

/-- Settles O25: the host's next action is none, a pass or a release, and each leaves a controller at rest. -/
theorem restingControllerHolds : Obligations.RestingControllerHolds := by
  intro s
  have hstay : s.RunOver → s.host = [] → step s = .next s := fun hover hs => by
    obtain ⟨-, hb, hf⟩ := s.runOver_iff.mp hover
    unfold step turn
    rw [hs]
    exact proceed_of_rest hb hf
  refine ⟨s.runOver_iff, fun hover => ?_, hstay⟩
  obtain ⟨hhost, hb, hf⟩ := s.runOver_iff.mp hover
  cases hs : s.host with
  | nil => exact ⟨s, hstay hover hs, hover, rfl, by rw [List.tail_nil, ← hs]⟩
  | cons a rest =>
    have hrest : ∀ b ∈ rest, b = .release ∨ b = .pass := fun b hmem => hhost b (hs ▸ List.mem_cons_of_mem a hmem)
    rcases hhost a (hs ▸ List.mem_cons_self) with rfl | rfl
    · exact ⟨_, step_release hs hb hf,
        (State.runOver_iff _).mpr ⟨hrest, by simp, by simp⟩, rfl, rfl⟩
    · exact ⟨_, step_pass hs hb hf, (State.runOver_iff _).mpr ⟨hrest, hb, hf⟩, rfl, rfl⟩

end Sys2Proof.Machine
end

section
/-! PROOF. Which responses a step can write, and so what a failed write reports and what an unmarked run holds
(60_exceptions.md R160, R171; 20_memory.md R51). -/

namespace Sys2Proof.Machine

/-! ### The responses of a step -/

/-- Why a step from `s` to `t` writes the response `x`. -/
inductive Grounds (s t : State) (x : Response) : Prop where
  /-- A command completes, or fails its validation (60_exceptions.md R160 to R163). -/
  | ends (h : x.status ∈ [Status.ok, .invalidLength, .unmanagedPin])
  /-- A fallible write fails (R171). -/
  | ioError (h : x.status = .pinIoError) (hf : s.platform.pinWritesFallible = true)
      (hop : ∃ r v, s.seq.ops[s.seq.k]? = some (.write r v))
  /-- A refusal or the fault, which is marked (R164, R165). -/
  | refused (cause : Cause) (h : x.status = cause.status) (hm : cause ∈ t.marks)

/-- From `s` to `t` no response was written, or one, on its grounds. -/
inductive Responds (s t : State) : Prop where
  | none (hr : t.seq.resp = s.seq.resp) (hh : ∀ x, Event.resp x ∈ t.hist → Event.resp x ∈ s.hist)
  | one (x : Response) (hg : Grounds s t x) (hr : t.seq.resp = some x)
      (hh : ∀ y, Event.resp y ∈ t.hist → y = x ∨ Event.resp y ∈ s.hist)

/-- A step whose last event is the response `x`, and whose other events are old or no response. -/
theorem Responds.of_resp {s t : State} {x : Response} {h : List Event} (hg : Grounds s t x)
    (hr : t.seq.resp = some x) (ht : t.hist = h ++ [.resp x])
    (hh : ∀ y, Event.resp y ∈ h → Event.resp y ∈ s.hist) : Responds s t := by
  refine .one x hg hr fun y hy => ?_
  rw [ht, List.mem_append, List.mem_singleton, Event.resp.injEq] at hy
  exact hy.symm.imp_right (hh y)

/-- To record a command or an access adds no response. -/
theorem resp_mem_of_mem_append {h : List Event} {e : Event} (he : ∀ x, Event.resp x ≠ e) (y : Response)
    (hy : Event.resp y ∈ h ++ [e]) : Event.resp y ∈ h := by
  simpa [he] using hy

/-- After an access that records `e`, no response, the advance answers `ok` or nothing. -/
theorem advance_responds {s u : State} {ok : Response} {e : Event} (he : ∀ x, Event.resp x ≠ e)
    (hok : ok.status = .ok) (hr : u.seq.resp = s.seq.resp) (hh : u.hist = s.hist ++ [e]) :
    Responds s (advance ok u) := by
  have hold : ∀ y, Event.resp y ∈ u.hist → Event.resp y ∈ s.hist := hh ▸ resp_mem_of_mem_append he
  rcases advance_cases ok u with ⟨-, h⟩ | ⟨-, h⟩ <;> rw [h]
  · exact .none hr hold
  · exact .of_resp (.ends (by simp [hok])) rfl rfl hold

/-- Every effect writes no response, or one, on its grounds. -/
theorem Effect.responds {s t : State} (e : Effect s t) : Responds s t := by
  have hissue (c : Command) : ∀ y, Event.resp y ∈ s.hist ++ [.cmd c] → Event.resp y ∈ s.hist :=
    resp_mem_of_mem_append (by simp)
  have hold : ∀ y, Event.resp y ∈ s.hist → Event.resp y ∈ s.hist := fun _ hy => hy
  have hok : Status.ok ∈ [Status.ok, .invalidLength, .unmanagedPin] := List.mem_cons_self
  cases e with
  | hold | release => exact .none rfl hold
  | fault c =>
    have hm : Cause.concurrentCommand ∈ (concurrentCommand (s.issue c)).marks := (mem_insertCause ..).mpr (.inl rfl)
    exact .of_resp (.refused _ rfl hm) rfl rfl (hissue c)
  | refusal c cause =>
    have hm : cause ∈ (refuse cause (s.issue c)).marks := (mem_insertCause ..).mpr (.inl rfl)
    exact .of_resp (.refused cause rfl hm) rfl rfl (hissue c)
  | construct o m n => exact .of_resp (.ends hok) rfl rfl (hissue _)
  | error c x hp hx => exact .of_resp (.ends (by rcases hx with hx | hx <;> simp [hx])) rfl rfl (hissue c)
  | accept i ops => exact .none rfl (hissue _)
  | write r v d => exact advance_responds (e := .write r v) (by simp) rfl rfl rfl
  | lose r v d hp hop hf => exact .of_resp (.ioError rfl hf ⟨r, v, hop⟩) rfl rfl hold
  | read r v d => exact advance_responds (e := .read r v) (by simp) (readResponse_status _ _) rfl rfl
  | pastEnd => exact .of_resp (.ends hok) rfl rfl hold

/-! ### The failed write -/

theorem Cause.status_ne_pinIoError (cause : Cause) : cause.status ≠ .pinIoError := by cases cause <;> decide

/-- With infallible writes, and at a read, no step writes a `PinIoError` (R171). -/
theorem Effect.resp_of_no_failure {s t : State} (e : Effect s t)
    (h : s.platform.pinWritesFallible = false ∨ ∃ r, s.seq.ops[s.seq.k]? = some (.read r))
    (hx : ∃ x, t.seq.resp = some x ∧ x.status = .pinIoError) : t.seq.resp = s.seq.resp := by
  obtain ⟨x, hx, hio⟩ := hx
  cases e.responds with
  | none hr => exact hr
  | one y hg hr =>
    obtain rfl : y = x := Option.some.inj (hr.symm.trans hx)
    cases hg with
    | ends hends => simp [hio] at hends
    | refused cause hcause => exact absurd (hcause.symm.trans hio) cause.status_ne_pinIoError
    | ioError _ hf hop =>
      obtain ⟨r, v, hop⟩ := hop
      rcases h with h | ⟨q, h⟩
      · simp [hf] at h
      · simp [hop] at h

/-- A write micro-op with fallible writes: its draw decides. -/
theorem microStep_write_fallible {s : State} {r : Role} {v : Bit} (hop : s.seq.ops[s.seq.k]? = some (.write r v))
    (hf : s.platform.pinWritesFallible = true) :
    microStep s =
      if Config.writeFails s.draws then complete (.ioError r) ((loseWrite r s).withDraws (s.draws + 1))
      else advance .success ((drive r v s).withDraws (s.draws + 1)) := by
  have hdrive : drive r v { s with draws := s.draws + 1 } = (drive r v s).withDraws (s.draws + 1) :=
    drive_withDraws r v s (s.draws + 1)
  simp only [microStep, hop, performWrite_eq, hf, if_true, hdrive]
  rfl

theorem advance_sameSetting (ok : Response) (s : State) : s.SameSetting (advance ok s) := by
  constructor <;> simp

/-- Settles O48: the draw decides between the loss of the write, which completes the command, and the write. -/
theorem failedWriteIsPinIoError : Obligations.FailedWriteIsPinIoError := by
  refine ⟨fun s r v hp hh hf hop => ⟨_, step_busy hp hh, ?_⟩, fun s t hstep => ?_⟩
  · rw [microStep_write_fallible hop hf]
    split
    · exact ⟨⟨rfl, rfl, rfl, rfl⟩, rfl, rfl, rfl, rfl, rfl, ⟨rfl, rfl, rfl, rfl⟩⟩
    · have hset := advance_sameSetting .success ((drive r v s).withDraws (s.draws + 1))
      obtain ⟨more, hmore⟩ := advance_hist_grows .success ((drive r v s).withDraws (s.draws + 1))
      exact ⟨advance_line .., advance_chain .., ⟨hset.cfg, hset.marks, hset.platform, hset.host⟩,
        more, by simpa using hmore⟩
  · obtain ⟨rest, e⟩ := step_effect hstep
    exact e.resp_of_no_failure

/-! ### The unmarked run -/

/-- No effect begins in FAULTED (R165). -/
theorem Effect.unfaulted {s t : State} (e : Effect s t) : s.seq.phase ≠ .faulted := by
  cases e with
  | hold _ hf | release _ hf | refusal _ _ _ _ hf => exact hf
  | fault _ hp | construct _ _ _ hp | error _ _ hp | accept _ _ hp | write _ _ _ hp | lose _ _ _ hp | read _ _ _ hp
    | pastEnd hp => simp [hp]

/-- Settles O49: marks stay, and a refusal or the fault would have left one. -/
theorem unmarkedRunHasNoRefusal : Obligations.UnmarkedRunHasNoRefusal := by
  intro s t hstep ⟨hmarks, hphase⟩
  obtain ⟨rest, e⟩ := step_effect hstep
  obtain ⟨-, hgrow, -⟩ := e.grows
  have hnone : s.marks = [] := List.eq_nil_iff_forall_not_mem.mpr fun m hm => by simpa [hmarks] using hgrow m hm
  refine ⟨⟨hnone, e.unfaulted⟩, fun r hr => ?_⟩
  cases e.responds with
  | none _ hh => exact .inl (hh r hr)
  | one x hg _ hh =>
    refine (hh r hr).symm.imp_right fun hrx => ?_
    subst hrx
    cases hg with
    | ends hends => simp only [List.mem_cons] at hends ⊢; tauto
    | ioError hio => simp [hio]
    | refused cause _ hm => simp [hmarks] at hm

end Sys2Proof.Machine
end

section
/-! PROOF. The two ends of the controller's life: the state at instantiation (70_reset_and_hazards.md R200; 10_state.md
R46) and the release (R205). -/

namespace Sys2Proof.Machine

/-! ### Reset -/

/-- At reset all five lines are listed, none of them written (R46). -/
theorem State.reset_lineLevel (r : Role) : State.reset.lineLevel r = some .unknown := by
  cases r <;> rfl

/-- Settles O1: with no chain stage there is no output, and every other field stands in `State.reset`. -/
theorem resetIsInstantiation : Obligations.ResetIsInstantiation :=
  ⟨rfl, rfl, State.reset_lineLevel, rfl, rfl, rfl, rfl, rfl, rfl, rfl, rfl, rfl⟩

/-! ### End of life -/

/-- In DESTROYED a record is refused: the phase, the lines and the chain stay, the refusal is answered and marked
(60_exceptions.md R164). -/
theorem takeCommand_destroyed_frame (c : Command) {s : State} (hp : s.seq.phase = .destroyed) :
    ∃ x, takeCommand c s = .next x ∧ x.seq.phase = .destroyed ∧ x.line = s.line ∧ x.chain = s.chain ∧
      x.seq.resp = some (.ofCause .destroyed) ∧ Cause.destroyed ∈ x.marks := by
  have hmark : Cause.destroyed ∈ (refuse .destroyed (s.issue c)).marks := (mem_insertCause ..).mpr (.inl rfl)
  exact ⟨_, takeCommand_of_destroyed c hp, hp, rfl, rfl, rfl, hmark⟩

/-- A micro-op ends in IDLE or leaves the controller BUSY. -/
theorem microStep_not_destroyed {s : State} (hp : s.seq.phase = .busy) : (microStep s).seq.phase ≠ .destroyed := by
  rcases microStep_finished_or_less hp with ⟨hidle, -⟩ | ⟨hbusy, -⟩
  · simp [hidle]
  · simp [hbusy]

/-- Settles O52: outside BUSY the step is `endOfLife`, which moves the phase only; in BUSY the release waits and the
step is a micro-op. -/
theorem endOfLifeLeavesTheLines : Obligations.EndOfLifeLeavesTheLines := by
  refine fun s rest hs => ⟨fun hrest => ?resting, fun hp => ?busy⟩
  case resting =>
    obtain ⟨hb, hf⟩ := (Phase.resting_iff _).mp hrest
    exact ⟨_, step_release hs hb hf, rfl, rfl, rfl, rfl, rfl, rfl, rfl, fun c => takeCommand_destroyed_frame c rfl⟩
  case busy =>
    have hwaits : hostBlocks s.host = true := by rw [hs]; rfl
    exact ⟨_, step_busy hp hwaits, microStep_not_destroyed hp⟩

end Sys2Proof.Machine
end
